-- ==== Sys2Proof/Word.lean ====
section
/-! DEFINITION. The word types of the CONF3 machine: a stream byte and the 48-bit record (spec/30_encoding.md R60, R63). -/

namespace Sys2Proof

/-- One byte of the instruction stream (spec/10_state.md R26). -/
abbrev Byte := BitVec 8

/-- One instruction record: "a fixed 48-bit (6-byte) big-endian word" (spec/30_encoding.md R60). -/
abbrev RecordWord := BitVec 48

end Sys2Proof
end

