-- ==== Sys2Proof/Syntax.lean ====
section
/-! DEFINITION. The instructions of the CONF3 machine, one constructor per row of spec/opcode_table.json, and the
assembler's symbolic tuples and errors (spec/30_encoding.md R70, R76 to R80). -/

namespace Sys2Proof

/-- An instruction with its two arguments in the order `operand_hi`, `operand_lo` (spec/30_encoding.md R70). The
arguments are unbounded naturals, since spec/40_data_transfer.md R90 (a) states the operations for any naturals; the
field widths are in `Instr.wf`. -/
inductive Instr where
  /-- `LOAD_CON(address, literal)`, R91. -/
  | loadCon (address literal : Nat)
  /-- `READ(address, _unused)`, R92. -/
  | read (address unused : Nat)
  /-- `WRITE(src_address, dst_address)`, R93. -/
  | write (src dst : Nat)
  /-- `POW(addr_base, addr_exponent)`, R100. -/
  | pow (base exponent : Nat)
deriving DecidableEq, Repr

/-- The first argument, carried in `operand_hi` (R70). -/
def Instr.hi : Instr → Nat
  | .loadCon address _ => address
  | .read address _ => address
  | .write src _ => src
  | .pow base _ => base

/-- The second argument, carried in `operand_lo` (R70). -/
def Instr.lo : Instr → Nat
  | .loadCon _ literal => literal
  | .read _ unused => unused
  | .write _ dst => dst
  | .pow _ exponent => exponent

/-- The assembler's name of the instruction (R77). -/
def Instr.mnemonic : Instr → String
  | .loadCon _ _ => "LOAD_CON"
  | .read _ _ => "READ"
  | .write _ _ => "WRITE"
  | .pow _ _ => "POW"

/-- A symbolic instruction, "a tuple of (mnemonic, operand_hi, operand_lo)" of integers, whose operands default to 0
(R76). -/
structure SymbolicInstr where
  mnemonic : String
  hi : Int := 0
  lo : Int := 0
deriving DecidableEq, Repr

/-- The three sub-fields of a record (R61), as `FieldOverflow` names them (R78). -/
inductive FieldName where
  | opcode
  | operandHi
  | operandLo
deriving DecidableEq, Repr

/-- The assembler errors (spec/60_exceptions.md R135); no step of the machine raises one. -/
inductive AsmError where
  /-- The mnemonic is not one of the four (R77). -/
  | unknownInstruction
  /-- `FieldOverflow{field, value, max}`, `max` the largest value the field holds (R78). -/
  | fieldOverflow (field : FieldName) (value : Int) (max : Nat)
deriving DecidableEq, Repr

/-- What the assembler answers: bytes, or an error that leaves the program without an encoding (R81). -/
inductive AsmResult where
  | bytes (bs : List Byte)
  | error (e : AsmError)
deriving DecidableEq, Repr

end Sys2Proof
end

