-- ==== Sys2Proof/WellFormed.lean ====
section
/-! DEFINITION. The static check on an instruction: its arguments fit the record's fields
(spec/30_encoding.md R62, R78). The check never looks at the machine's configuration (R84). -/

namespace Sys2Proof

/-- `operand_hi` fits 24 bits and `operand_lo` fits 12 bits (spec/30_encoding.md R62). -/
def Instr.wf (i : Instr) : Bool :=
  decide (i.hi < 2 ^ 24) && decide (i.lo < 2 ^ 12)

end Sys2Proof
end

