-- ==== Sys2Proof/Decode.lean ====
section
/-! DEFINITION. The instruction decoder and its inverse: byte serialisation (spec/30_encoding.md R63), the field
extractor (R66), the opcode multiplexer (R69, R72), `split` (R65), and the encoder (R62, R79). -/

namespace Sys2Proof

/-! ### Bytes and the 48-bit word (R63) -/

/-- `w = B0*2^40 + … + B5` (R63): the byte at the lowest offset is the most significant. -/
def wordOfBytes (b0 b1 b2 b3 b4 b5 : Byte) : RecordWord :=
  b0 ++ b1 ++ b2 ++ b3 ++ b4 ++ b5

/-- The six stream bytes of a record, `B0 = w[47:40]` first (R63). -/
def bytesOfWord (w : RecordWord) : List Byte :=
  [w.extractLsb' 40 8, w.extractLsb' 32 8, w.extractLsb' 24 8,
   w.extractLsb' 16 8, w.extractLsb' 8 8, w.extractLsb' 0 8]

/-! ### The field extractor (R61, R66) -/

/-- The triple `(opcode, operand_hi, operand_lo)` (R61, R67). -/
structure Fields where
  opcode : BitVec 5
  operandHi : BitVec 24
  operandLo : BitVec 12
deriving DecidableEq, Repr

/-- `decode` of R66: `w[40:36]`, `w[35:12]`, `w[11:0]`; the padding `w[47:41]` is not read (R68). -/
def fieldsOfWord (w : RecordWord) : Fields :=
  { opcode := w.extractLsb' 36 5, operandHi := w.extractLsb' 12 24, operandLo := w.extractLsb' 0 12 }

/-- `(opcode << 36) | (operand_hi << 12) | operand_lo` (R62); the seven padding bits are 0. -/
def wordOfFields (f : Fields) : RecordWord :=
  (f.opcode.setWidth 48 <<< 36) ||| (f.operandHi.setWidth 48 <<< 12) ||| f.operandLo.setWidth 48

/-! ### The opcode multiplexer (R69) -/

/-- The opcode number of each instruction: "LOAD_CON=0, READ=12, WRITE=13, POW=27" (R69). -/
def Instr.opcode : Instr → BitVec 5
  | .loadCon _ _ => 0
  | .read _ _ => 12
  | .write _ _ => 13
  | .pow _ _ => 27

/-- What the decoder reads: an instruction, or one of the two rejections by name. -/
inductive Decoded where
  | instr (i : Instr)
  /-- The opcode selects no instruction (R72); dispatch raises `UnknownOpcode` for it (R133). -/
  | unknownOpcode (opcode : BitVec 5)
  /-- Not a record: the chunk has some other number of bytes than six. `split` yields no such chunk (R65). -/
  | notSixBytes (length : Nat)
deriving DecidableEq, Repr

/-- The multiplexer: `opcode` selects the operation, the operands are zero-extended to naturals (R69, R70, R71). -/
def select (f : Fields) : Decoded :=
  if f.opcode = 0 then .instr (.loadCon f.operandHi.toNat f.operandLo.toNat)
  else if f.opcode = 12 then .instr (.read f.operandHi.toNat f.operandLo.toNat)
  else if f.opcode = 13 then .instr (.write f.operandHi.toNat f.operandLo.toNat)
  else if f.opcode = 27 then .instr (.pow f.operandHi.toNat f.operandLo.toNat)
  else .unknownOpcode f.opcode

/-- A record word decoded: extract the fields, then select (R66, R69). -/
def decodeWord (w : RecordWord) : Decoded :=
  select (fieldsOfWord w)

/-- A chunk of the stream decoded; total on any bytes (R67). -/
def decode : List Byte → Decoded
  | [b0, b1, b2, b3, b4, b5] => decodeWord (wordOfBytes b0 b1 b2 b3 b4 b5)
  | bs => .notSixBytes bs.length

/-- `split`: the stream cut into consecutive 6-byte windows in stream order (R65). A trailing partial window is not a
chunk: the sequencer rejects such a stream before any record executes (spec/45_sequencer.md R112). -/
def split : List Byte → List (List Byte)
  | b0 :: b1 :: b2 :: b3 :: b4 :: b5 :: rest => [b0, b1, b2, b3, b4, b5] :: split rest
  | _ => []

/-! ### The encoder (R62, R63, R79, R81) -/

/-- The record fields of an instruction. -/
def Instr.fields (i : Instr) : Fields :=
  { opcode := i.opcode, operandHi := BitVec.ofNat 24 i.hi, operandLo := BitVec.ofNat 12 i.lo }

/-- The record of an instruction, padding 0 (R62). Meant for well-formed instructions only: an argument that does not
fit its field has no encoding, and the assembler refuses it (R78, Sys2Proof/Machine/Assembler.lean). -/
def encodeWord (i : Instr) : RecordWord :=
  wordOfFields i.fields

/-- The six bytes of an instruction, big-endian (R63, R79). -/
def encode (i : Instr) : List Byte :=
  bytesOfWord (encodeWord i)

/-- A program's stream: the records concatenated in program order, "no separators, no length prefix" (R64, R81). -/
def encodeProgram : List Instr → List Byte
  | [] => []
  | i :: rest => encode i ++ encodeProgram rest

/-! ### The opcode table's numbering -/

/-- The record whose bits are `w` as spec/opcode_table.json numbers them: the table's `match` and `mask` are 48-bit
values over the record `w` of R61, bit 0 least significant; bits at and above `nbits` are 0. -/
def tableWord (nbits w : Nat) : RecordWord :=
  BitVec.ofNat 48 (w % 2 ^ nbits)

/-- The instruction the decoder reads from that record, stored in its six bytes as the hardware stores it. -/
def decodeTableWord (nbits w : Nat) : Option Instr :=
  match decode (bytesOfWord (tableWord nbits w)) with
  | .instr i => some i
  | .unknownOpcode _ => none
  | .notSixBytes _ => none

end Sys2Proof
end

