-- ==== Sys2Proof/Config.lean ====
section
/-! DEFINITION. What is fixed when a machine is constructed: the parameters of spec/00_scope.md R5, R6, R8 and R9.
The constants derived from them (R7) are in Sys2Proof/Machine/Params.lean. -/

namespace Sys2Proof

/-- The construction parameters: "constructor-time, immutable thereafter" (spec/00_scope.md section 3, spec/10_state.md R36). -/
structure Config where
  /-- `SIZE_BYTES`, the byte width of memory (R5); a machine exists only for `1 ≤ SIZE_BYTES`. -/
  sizeBytes : Nat
  /-- `VALUE_SIZE_BYTES_REQ`, the requested byte width of every scalar, any integer; it is clamped (R6). -/
  valueSizeBytesReq : Int
  /-- `LOGGING_ENABLED` (R8). -/
  loggingEnabled : Bool
  /-- `MEM_RESET`, the value memory holds after reset (R9). -/
  memReset : Nat
deriving DecidableEq, Repr

/-- The defaults of R5, R6 and R9. DESIGN CHOICE: logging on; R8 gives `LOGGING_ENABLED` no default
(notes/assumptions/3.md). -/
def Config.default : Config :=
  { sizeBytes := 64, valueSizeBytesReq := 4, loggingEnabled := true, memReset := 0 }

end Sys2Proof
end

