-- ==== Sys2Proof/Machine/Params.lean ====
section
/-! DEFINITION. The constants derived from the construction parameters (spec/00_scope.md R6, R7; spec/10_state.md R20,
R30). -/

namespace Sys2Proof

/-- `VALUE_SIZE_BYTES = min(max(VALUE_SIZE_BYTES_REQ, 1), SIZE_BYTES)`: the request clamped to `[1, SIZE_BYTES]` (R6). -/
def Config.valueSizeBytes (c : Config) : Nat :=
  (min (max c.valueSizeBytesReq 1) (c.sizeBytes : Int)).toNat

/-- `W = 8*VALUE_SIZE_BYTES`, the value width in bits (R7). -/
def Config.valueBits (c : Config) : Nat :=
  8 * c.valueSizeBytes

/-- `MEM_BITS = 8*SIZE_BYTES` (R5). -/
def Config.memBits (c : Config) : Nat :=
  8 * c.sizeBytes

/-- `MAX_ADDRESS = (SIZE_BYTES - VALUE_SIZE_BYTES) * 8`, the highest legal field address (R7). -/
def Config.maxAddress (c : Config) : Nat :=
  (c.sizeBytes - c.valueSizeBytes) * 8

/-- `MAX_VALUE = 2^W - 1`, the mask of a value (R7). -/
def Config.maxValue (c : Config) : Nat :=
  2 ^ c.valueBits - 1

/-- The domain of the parameters: `SIZE_BYTES >= 1` (R5) and `MEM_RESET < 2^MEM_BITS` (R9). Every request is in the
domain, since it is clamped (R6). -/
def Config.valid (c : Config) : Bool :=
  decide (1 ≤ c.sizeBytes) && decide (c.memReset < 2 ^ c.memBits)

end Sys2Proof
end

