-- ==== Sys2Proof/Machine/State.lean ====
section
/-! DEFINITION. The state of the CONF3 machine (spec/10_state.md), its reset (R34, R160), and the reasons a step can
stop. -/

namespace Sys2Proof.Machine

/-- `status` (spec/10_state.md R24). -/
inductive Status where
  /-- RUNNING: the machine has a step. -/
  | running
  /-- DONE: the records are exhausted and the run ended with no fault. -/
  | done
  /-- FAULT: a hard error aborted the run. -/
  | fault
deriving DecidableEq, Repr

/-- The four faults the machine can raise (spec/60_exceptions.md R130). -/
inductive FaultKind where
  /-- An address argument is above `MAX_ADDRESS` (R131). -/
  | addressOutOfRange
  /-- The literal of `LOAD_CON` is above `MAX_VALUE` (R132). -/
  | valueOutOfRange
  /-- The opcode is none of 0, 12, 13, 27 (R133). -/
  | unknownOpcode
  /-- `ILEN mod 6 ≠ 0` (R134). -/
  | malformedRecord
deriving DecidableEq, Repr

/-- The fault record `(kind, op_index, opcode, arg)` (spec/10_state.md R25). -/
structure FaultRecord where
  kind : FaultKind
  /-- The value of `operation_counter` when the fault was raised. -/
  opIndex : Nat
  /-- The 5-bit opcode of the failing record; absent (`NONE`) for `MalformedRecord`. -/
  opcode : Option (BitVec 5)
  /-- The offending address, literal, opcode number, or `ILEN`. -/
  arg : Nat
deriving DecidableEq, Repr

/-- One item of the observation stream; `n` is the counter before the instruction's increment (spec/10_state.md R27). -/
inductive Event where
  | loadCon (n address value : Nat)
  | read (n address value : Nat)
  | write (n src dst value : Nat)
  | pow (n addrBase addrExponent base exponent result : Nat)
deriving DecidableEq, Repr

/-- The number `n` that an event carries as its first field (R27). -/
def Event.index : Event → Nat
  | .loadCon n _ _ => n
  | .read n _ _ => n
  | .write n _ _ _ => n
  | .pow n _ _ _ _ _ => n

/-- The machine: the state of spec/10_state.md section 1, and the run's parameters, which no step changes (R26, R36). -/
structure State where
  /-- The construction parameters (R36). -/
  cfg : Config
  /-- `ISTREAM`; `ILEN` is its length (R26). -/
  istream : List Byte
  /-- `mem`: one unsigned integer of `MEM_BITS` bits, bit `i` of memory having weight `2^i` (R20, R40). -/
  mem : Nat
  /-- `operation_counter` (R21). -/
  operationCounter : Nat
  /-- `pc`: the 0-based index of the next record (R22). -/
  pc : Nat
  /-- `status` (R24). -/
  status : Status
  /-- `fault`: empty unless `status = FAULT` (R25). -/
  fault : Option FaultRecord
  /-- `obs`: the observation stream, oldest event first (R27). -/
  obs : List Event
deriving DecidableEq, Repr

/-- The reasons a step ends in the fault outcome. The four faults of R130 are not among them: raising one is a NEXT
state (R136). -/
inductive Fault where
  /-- Raised by the sequencer when a step is asked of a machine whose `status` is FAULT: the run was aborted, the
  record reports why (spec/60_exceptions.md R137, R140; spec/45_sequencer.md R121). SAFE: the spec gives no step. -/
  | runAborted (record : Option FaultRecord)
deriving DecidableEq, Repr

/-- The reasons a step is refused. -/
inductive Refusal where
  /-- The instruction has no meaning in the model. No arm of `exec` answers it. SAFE. -/
  | notModelled (mnemonic : String)
  /-- Raised by construction and by the sequencer: the parameters are outside their domain, "no machine exists for it"
  (spec/00_scope.md R5, R9; D4). SAFE. -/
  | noSuchMachine
  /-- Raised by the sequencer when `status` is DONE: one run per reset, a second has no meaning
  (spec/45_sequencer.md R121). SAFE. -/
  | runIsOver
  /-- Raised by the sequencer when `6*pc > ILEN`; R22 gives `pc` the values `0 .. ILEN/6` only, and no run reaches
  another (notes/assumptions/9.md). SAFE. -/
  | pcBeyondStream
deriving DecidableEq, Repr

/-- The machine just constructed with parameters `c`, about to run `stream` (spec/10_state.md R34,
spec/70_reset_and_hazards.md R160). -/
def State.resetWith (c : Config) (stream : List Byte) : State :=
  { cfg := c, istream := stream, mem := c.memReset, operationCounter := 1, pc := 0,
    status := .running, fault := none, obs := [] }

/-- The machine right after reset at the default parameters, with no program supplied. DESIGN CHOICE: logging on
(notes/assumptions/3.md) and the empty stream (notes/assumptions/4.md). -/
def State.reset : State :=
  State.resetWith Config.default []

end Sys2Proof.Machine
end

