-- ==== Sys2Proof/Machine/Ops.lean ====
section
/-! DEFINITION. The operations every instruction shares: the bit-field datapath (spec/00_scope.md R14,
spec/20_memory.md R41, R42), raising a fault (spec/60_exceptions.md R136), emitting an event (spec/10_state.md R27) and
completing an instruction (spec/45_sequencer.md R116). There is no return from a fault (R140), so none is defined. -/

namespace Sys2Proof.Machine

/-! ### The datapath -/

/-- Memory is in its one form: a natural below `2^MEM_BITS`, so that equal memories are equal numbers
(spec/10_state.md R20, spec/20_memory.md R44; notes/assumptions/5.md). -/
abbrev Memory.wf (c : Config) (mem : Nat) : Prop :=
  mem < 2 ^ c.memBits

/-- `M & ~x`: `M` with every bit that is 1 in `x` cleared, `M - (M & x)` (R12). -/
def clearBits (M x : Nat) : Nat :=
  M - (M &&& x)

/-- `MemRead(addr, n) = (mem >> addr) & (2^n - 1)` (R14). -/
def memRead (mem addr n : Nat) : Nat :=
  (mem >>> addr) &&& (2 ^ n - 1)

/-- `MemWrite(addr, n, v)`: clear the `n`-bit window at `addr`, then OR in the low `n` bits of `v` (R14). -/
def memWrite (mem addr n v : Nat) : Nat :=
  clearBits mem ((2 ^ n - 1) <<< addr) ||| ((v &&& (2 ^ n - 1)) <<< addr)

/-- `field(a) = MemRead(a, W)` (R41). -/
def State.field (s : State) (a : Nat) : Nat :=
  memRead s.mem a s.cfg.valueBits

/-- `MemWrite(a, W, v)` (R42). -/
def State.writeField (s : State) (a v : Nat) : State :=
  { s with mem := memWrite s.mem a s.cfg.valueBits v }

/-! ### Faults -/

/-- `raise F(op_index, opcode, arg)` with `op_index` the current counter: `status` becomes FAULT and the fault record
is filled; nothing else changes (R136). This is the one operation that takes a fault. -/
def State.raise (s : State) (kind : FaultKind) (opcode : Option (BitVec 5)) (arg : Nat) : State :=
  { s with
    status := .fault
    fault := some { kind := kind, opIndex := s.operationCounter, opcode := opcode, arg := arg } }

/-! ### Events and completion -/

/-- `emit e`: append `e` when `LOGGING_ENABLED`, do nothing otherwise (R27). -/
def State.emit (s : State) (e : Event) : State :=
  { s with obs := bif s.cfg.loggingEnabled then s.obs ++ [e] else s.obs }

/-- `operation_counter <- operation_counter + 1; pc <- pc + 1` (R116). -/
def State.advance (s : State) : State :=
  { s with operationCounter := s.operationCounter + 1, pc := s.pc + 1 }

/-- The end of an instruction that raised no fault: its event, then the counter and `pc` (R116). -/
def State.complete (s : State) (e : Event) : State :=
  (s.emit e).advance

/-- The end of the run: `status <- DONE`, nothing else (spec/45_sequencer.md R113). -/
def State.finish (s : State) : State :=
  { s with status := .done }

end Sys2Proof.Machine
end

