-- ==== Sys2Proof/Machine/Operands.lean ====
section
/-! DEFINITION. The two operand forms and their checks: a bit address, legal up to `MAX_ADDRESS` (spec/20_memory.md
R43, spec/60_exceptions.md R131), and a literal, legal up to `MAX_VALUE` (R132). The first check that fails raises its
fault and the instruction does nothing else (spec/40_data_transfer.md R90 (b), R138). -/

namespace Sys2Proof.Machine

/-- Validate an address argument of the instruction with this opcode, then go on (R43, R131). -/
def requireAddress (opcode : BitVec 5) (address : Nat) (s : State)
    (goOn : Host.Outcome State Fault Refusal) : Host.Outcome State Fault Refusal :=
  if s.cfg.maxAddress < address then .next (s.raise .addressOutOfRange (some opcode) address) else goOn

/-- Validate a literal argument of the instruction with this opcode, then go on (R132). -/
def requireLiteral (opcode : BitVec 5) (literal : Nat) (s : State)
    (goOn : Host.Outcome State Fault Refusal) : Host.Outcome State Fault Refusal :=
  if s.cfg.maxValue < literal then .next (s.raise .valueOutOfRange (some opcode) literal) else goOn

end Sys2Proof.Machine
end

