-- ==== Sys2Proof/Machine/DataTransfer.lean ====
section
/-! DEFINITION. `LOAD_CON`, `READ` and `WRITE` (spec/40_data_transfer.md R91, R92, R93), at the operation level: the
arguments are any naturals (R90 (a)). -/

namespace Sys2Proof.Machine

/-- `LOAD_CON(address, literal)`: store a constant into the field at `address` (R91). -/
def execLoadCon (address literal : Nat) (s : State) : Host.Outcome State Fault Refusal :=
  requireAddress 0 address s <|
  requireLiteral 0 literal s <|
  .next ((s.writeField address literal).complete (.loadCon s.operationCounter address literal))

/-- `READ(address, _unused)`: observe the field at `address`; the second operand has no part in it (R92, R73). -/
def execRead (address : Nat) (s : State) : Host.Outcome State Fault Refusal :=
  requireAddress 12 address s <|
  .next (s.complete (.read s.operationCounter address (s.field address)))

/-- `WRITE(src_address, dst_address)`: copy one field to another; the source is read from memory as it was (R93, R58). -/
def execWrite (src dst : Nat) (s : State) : Host.Outcome State Fault Refusal :=
  requireAddress 13 src s <|
  requireAddress 13 dst s <|
  let v := s.field src
  .next ((s.writeField dst v).complete (.write s.operationCounter src dst v))

end Sys2Proof.Machine
end

