-- ==== Sys2Proof/Machine/Arithmetic.lean ====
section
/-! DEFINITION. The arithmetic of `POW` (spec/41_arithmetic.md R100 to R103): `(b ** e) mod m` by square-and-multiply,
which R103 allows ("Any method that yields the same number may compute it"). Sys2Proof/Laws/Arithmetic.lean proves that
it is the formula `b ^ e % m` of R100 for every `b`, `e` and `m`. -/

namespace Sys2Proof.Machine

/-- Square-and-multiply over the low `fuel` bits of the exponent, every product reduced modulo `m`; the empty product
is `1 mod m` (R103). -/
def powModFuel (m : Nat) : Nat → Nat → Nat → Nat
  | 0, _, _ => 1 % m
  | fuel + 1, b, e =>
    let rest := powModFuel m fuel (b * b % m) (e / 2)
    if e % 2 = 1 then b * rest % m else rest

/-- `(b ** e) mod m` over the unbounded naturals, with `0 ** 0 = 1` (R100, R101). -/
def powMod (b e m : Nat) : Nat :=
  powModFuel m (e.log2 + 1) b e

end Sys2Proof.Machine
end

