-- ==== Sys2Proof/Machine/Power.lean ====
section
/-! DEFINITION. `POW`, the one arithmetic instruction (spec/41_arithmetic.md R100). -/

namespace Sys2Proof.Machine

/-- `POW(addr_base, addr_exponent)`: the base field becomes `(b ** e) mod MAX_VALUE`; both fields are read before the
write (R100, R58). The modulus is `MAX_VALUE = 2^W - 1`, not `2^W` (R102). -/
def execPow (base exponent : Nat) (s : State) : Host.Outcome State Fault Refusal :=
  requireAddress 27 base s <|
  requireAddress 27 exponent s <|
  let b := s.field base
  let e := s.field exponent
  let r := powMod b e s.cfg.maxValue
  .next ((s.writeField base r).complete (.pow s.operationCounter base exponent b e r))

end Sys2Proof.Machine
end

