-- ==== Sys2Proof/Machine/Dispatch.lean ====
section
/-! DEFINITION. Dispatch of a decoded instruction to its meaning, one arm per constructor (spec/45_sequencer.md R115). -/

namespace Sys2Proof.Machine

def exec (i : Instr) (s : State) : Host.Outcome State Fault Refusal :=
  match i with
  | .loadCon address literal => Sys2Proof.Machine.execLoadCon address literal s
  | .read address _ => Sys2Proof.Machine.execRead address s
  | .write src dst => Sys2Proof.Machine.execWrite src dst s
  | .pow base exponent => Sys2Proof.Machine.execPow base exponent s

end Sys2Proof.Machine
end

