-- ==== Sys2Proof/Machine/Sequencer.lean ====
section
/-! DEFINITION. The control sequencer (spec/45_sequencer.md): fetch (R114), dispatch (R115), the step (R111), and the
placing of a record where the next fetch reads it. -/

namespace Sys2Proof.Machine

/-- `ILEN`, the stream's length in bytes (spec/10_state.md R26). -/
def State.ilen (s : State) : Nat :=
  s.istream.length

/-- The bytes `ISTREAM[6*pc] .. ISTREAM[6*pc + 5]`, as many of them as exist (R114). -/
def State.fetch (s : State) : List Byte :=
  (s.istream.drop (6 * s.pc)).take 6

/-- What a decoded chunk does: an instruction runs; an unknown opcode raises `UnknownOpcode` without a look at the
operands (R115, R133); a chunk of fewer than six bytes is met only where `6*pc > ILEN` (notes/assumptions/9.md). -/
def dispatch (d : Decoded) (s : State) : Host.Outcome State Fault Refusal :=
  match d with
  | .instr i => exec i s
  | .unknownOpcode opcode => .next (s.raise .unknownOpcode (some opcode) opcode.toNat)
  | .notSixBytes _ => .refused .pcBeyondStream

/-- The step of a running machine, its three checks in the order of R111. -/
def runningStep (s : State) : Host.Outcome State Fault Refusal :=
  if s.ilen % 6 ≠ 0 then .next (s.raise .malformedRecord none s.ilen)
  else if 6 * s.pc = s.ilen then .next s.finish
  else dispatch (decode s.fetch) s

/-- The step by `status`: only a RUNNING machine has one (R111, R121), and only a machine that exists (R5, D4). -/
def sequencerStep (s : State) : Host.Outcome State Fault Refusal :=
  if s.cfg.sizeBytes < 1 then .refused .noSuchMachine
  else
    match s.status with
    | .running => runningStep s
    | .done => .refused .runIsOver
    | .fault => .fault (.runAborted s.fault)

/-- The stream with `record` as the record at index `k`: the bytes before it as they are (zeros where the stream was
shorter), the whole records after it as they are, a trailing partial record left out. -/
def placeRecord (stream : List Byte) (k : Nat) (record : List Byte) : List Byte :=
  let before := stream.take (6 * k)
  let after := stream.drop (6 * k + 6)
  before ++ List.replicate (6 * k - before.length) 0 ++ record ++ after.take (after.length / 6 * 6)

end Sys2Proof.Machine
end

