-- ==== Sys2Proof/Machine/Step.lean ====
section
/-! DEFINITION. The machine's step (spec/45_sequencer.md R111) and the placing of an instruction where it fetches. -/

namespace Sys2Proof.Machine

/-- One step of the machine. -/
def step (s : State) : Host.Outcome State Fault Refusal :=
  sequencerStep s

/-- `s` about to run the record whose bits are `w`: the record stands at index `pc` of a stream of whole records, and
`status` is RUNNING. The stream is an input of the run (R110), so this stands for supplying a program
(notes/assumptions/4.md). -/
def State.withFetchWord (s : State) (nbits w : Nat) : State :=
  { s with
    istream := placeRecord s.istream s.pc (bytesOfWord (tableWord nbits w))
    status := .running }

end Sys2Proof.Machine
end

