-- ==== Sys2Proof/Machine/Assembler.lean ====
section
/-! DEFINITION. The assembler (spec/30_encoding.md R76 to R82): software outside the hardware block (spec/00_scope.md
R3), which no step of the machine reads. -/

namespace Sys2Proof.Machine

/-- The fixed table of mnemonics; matching is exact and case-sensitive (R77). -/
def opcodeOfMnemonic (m : String) : Option Nat :=
  if m = "LOAD_CON" then some 0
  else if m = "READ" then some 12
  else if m = "WRITE" then some 13
  else if m = "POW" then some 27
  else none

/-- Whether an integer fits a field of `width` bits; a negative one does not (R78). -/
def fitsField (width : Nat) (v : Int) : Bool :=
  decide (0 ≤ v) && decide (v < 2 ^ width)

/-- Field-width validation in the order `opcode`, `operand_hi`, `operand_lo`, then packing (R78, R79, R80). -/
def packFields (opcode hi lo : Int) : AsmResult :=
  if !fitsField 5 opcode then .error (.fieldOverflow .opcode opcode 31)
  else if !fitsField 24 hi then .error (.fieldOverflow .operandHi hi 16777215)
  else if !fitsField 12 lo then .error (.fieldOverflow .operandLo lo 4095)
  else .bytes (bytesOfWord (wordOfFields
    { opcode := BitVec.ofInt 5 opcode, operandHi := BitVec.ofInt 24 hi, operandLo := BitVec.ofInt 12 lo }))

/-- `encode(mnemonic, operand_hi, operand_lo)`: the mnemonic is checked first (R77, R80). -/
def assemble (t : SymbolicInstr) : AsmResult :=
  match opcodeOfMnemonic t.mnemonic with
  | none => .error .unknownInstruction
  | some opcode => packFields opcode t.hi t.lo

/-- A program assembled: the concatenation of its records; if any tuple fails, the program has no encoding (R81).
DESIGN CHOICE (notes/assumptions/15.md, unsafe for a claim about which error it is): where several tuples fail, the
error answered is that of the first failing tuple in program order. R81 says only that the program has no encoding, and
R80 orders the checks inside one tuple, not the tuples. -/
def assembleProgram : List SymbolicInstr → AsmResult
  | [] => .bytes []
  | t :: rest =>
    match assemble t with
    | .error e => .error e
    | .bytes record =>
      match assembleProgram rest with
      | .error e => .error e
      | .bytes stream => .bytes (record ++ stream)

/-- The tuple that spells an instruction (R70, R76). -/
def symbolicOf (i : Instr) : SymbolicInstr :=
  { mnemonic := i.mnemonic, hi := i.hi, lo := i.lo }

end Sys2Proof.Machine
end

