-- ==== Sys2Proof/Machine/Construct.lean ====
section
/-! DEFINITION. Construction of a machine instance from the host's parameters (spec/70_reset_and_hazards.md R160,
R161). -/

namespace Sys2Proof.Machine

/-- What construction answers. -/
inductive Constructed where
  | machine (s : State)
  | refused (r : Refusal)
deriving DecidableEq, Repr

/-- Reset is construction (R160). The sizes are integers (R5, R6); a request is clamped, never refused (R6); with
`SIZE_BYTES < 1` no machine exists (R5, D4), nor with a `MEM_RESET` outside its range (R9). -/
def construct (sizeBytes valueSizeBytesReq : Int) (loggingEnabled : Bool) (memReset : Nat) (stream : List Byte) :
    Constructed :=
  let c : Config :=
    { sizeBytes := sizeBytes.toNat, valueSizeBytesReq := valueSizeBytesReq,
      loggingEnabled := loggingEnabled, memReset := memReset }
  if c.valid then .machine (State.resetWith c stream) else .refused .noSuchMachine

end Sys2Proof.Machine
end

