-- ==== Sys2Proof/Machine/Outputs.lean ====
section
/-! DEFINITION. What a host reads from the machine beside its state: the final report (spec/10_state.md R35) and the
numeric fault codes of a status port (spec/60_exceptions.md R130). -/

namespace Sys2Proof.Machine

/-- The final report: the value of `mem` once `status` is DONE; none while running and none on FAULT (R35). Its text is
not specified (spec/00_scope.md R4 (b)). -/
def State.finalReport (s : State) : Option Nat :=
  match s.status with
  | .running => none
  | .done => some s.mem
  | .fault => none

/-- The code of each fault, 1 to 4 (R130). -/
def FaultKind.code : FaultKind → Nat
  | .addressOutOfRange => 1
  | .valueOutOfRange => 2
  | .unknownOpcode => 3
  | .malformedRecord => 4

end Sys2Proof.Machine
end

