-- ==== Sys2Proof/Safety.lean ====
section
/-! DEFINITION. The terms claims are stated in: the invariant of a reachable state, runs, and views of a state. -/

namespace Sys2Proof.Machine

/-- What holds in every reachable state, field by field. -/
structure State.Inv (s : State) : Prop where
  /-- A machine exists for the parameters (spec/00_scope.md R5). -/
  exists_machine : 1 ≤ s.cfg.sizeBytes
  /-- Memory stays in `[0, 2^MEM_BITS - 1]` (spec/10_state.md R20, spec/20_memory.md R44). -/
  mem_wf : Memory.wf s.cfg s.mem
  /-- `operation_counter = pc + 1` (spec/10_state.md R23). -/
  counter_eq : s.operationCounter = s.pc + 1
  /-- `pc` is in `0 .. ILEN/6` (spec/10_state.md R30). -/
  pc_le : 6 * s.pc ≤ s.ilen
  /-- DONE only when the whole records are exhausted (spec/45_sequencer.md R113). -/
  done_at_end : s.status = .done → 6 * s.pc = s.ilen
  /-- A fault record stands exactly when `status = FAULT` (spec/10_state.md R25, R34). -/
  fault_iff : s.status = .fault ↔ s.fault.isSome = true
  /-- The fault record's index is the counter, which no fault increments (spec/10_state.md R21, R25). -/
  fault_index : ∀ r, s.fault = some r → r.opIndex = s.operationCounter
  /-- A malformed stream executes no record (spec/45_sequencer.md R112). -/
  malformed_idle : s.ilen % 6 ≠ 0 → s.pc = 0
  /-- One event per completed record, numbered from 1, when logging; none otherwise (spec/10_state.md R27). -/
  obs_numbered : s.obs.map Event.index = bif s.cfg.loggingEnabled then List.range' 1 s.pc else []

/-- The bits of an outcome that a claim reads: the next state, if there is one. -/
def nextState (o : Host.Outcome State Fault Refusal) : Option State :=
  match o with
  | .next t => some t
  | .fault _ => none
  | .refused _ => none

/-- `s` with the logging parameter and the observation stream replaced: what a program cannot see (R27). -/
def State.withLog (s : State) (enabled : Bool) (events : List Event) : State :=
  { s with cfg := { s.cfg with loggingEnabled := enabled }, obs := events }

/-- A program executed as a list, instruction by instruction, up to the first fault: the reading of a run that has no
stream and no `pc` of its own (spec/45_sequencer.md R122). -/
def execProgram : List Instr → State → Host.Outcome State Fault Refusal
  | [], s => .next s
  | i :: rest, s =>
    match exec i s with
    | .next t => if t.status = .fault then .next t else execProgram rest t
    | .fault r => .fault r
    | .refused r => .refused r

end Sys2Proof.Machine
end

