-- ==== Sys2Proof/Certificates/Slice0/Obligations.lean ====
section
/-! DEFINITION. The statements about the model, from the numbered rules of spec/. Where a clause rests on a decision or
an inference that the spec marks as its own, the docstring says so. -/

open Sys2Proof Sys2Proof.Machine

/-! ### Reset, construction and the invariant -/

/-- R34: every field after reset, at any parameters and any stream; `MEM_RESET` is 0 in the default machine (R9, D3: the
spec's decision). The logging value and the stream of `State.reset` are the model's choice (log entries 3 and 4) and are
not stated here. -/
def Obligations.ResetLeavesTheSpecifiedState : Prop :=
  (∀ (c : Config) (stream : List Byte),
    (State.resetWith c stream).cfg = c ∧
    (State.resetWith c stream).istream = stream ∧
    (State.resetWith c stream).mem = c.memReset ∧
    (State.resetWith c stream).operationCounter = 1 ∧
    (State.resetWith c stream).pc = 0 ∧
    (State.resetWith c stream).status = .running ∧
    (State.resetWith c stream).fault = none ∧
    (State.resetWith c stream).obs = []) ∧
  State.reset.mem = 0 ∧ State.reset.operationCounter = 1 ∧ State.reset.pc = 0 ∧
  State.reset.status = .running ∧ State.reset.fault = none ∧ State.reset.obs = []

/-- R5, R6, R7, R160: `SIZE_BYTES < 1` has no machine (D4: the spec's decision); else the request is clamped over the
integers, the constants are derived, and the machine is the reset state. -/
def Obligations.ConstructionClampsAndDerives : Prop :=
  ∀ (size req : Int) (logging : Bool) (memReset : Nat) (stream : List Byte),
    (size < 1 → construct size req logging memReset stream = .refused .noSuchMachine) ∧
    (1 ≤ size → memReset < 2 ^ (8 * size.toNat) →
      ∃ c : Config,
        construct size req logging memReset stream = .machine (State.resetWith c stream) ∧
        (c.sizeBytes : Int) = size ∧ c.loggingEnabled = logging ∧ c.memReset = memReset ∧
        (c.valueSizeBytes : Int) = min (max req 1) size ∧
        c.valueBits = 8 * c.valueSizeBytes ∧
        (c.maxAddress : Int) = (size - c.valueSizeBytes) * 8 ∧
        c.maxValue = 2 ^ c.valueBits - 1 ∧
        c.maxAddress + c.valueBits = c.memBits ∧
        255 ≤ c.maxValue ∧ 8 ∣ c.maxAddress)

/-- The reset state of every machine that exists meets the invariant, the default one among them. -/
def Obligations.ResetMeetsTheInvariant : Prop :=
  (∀ (c : Config) (stream : List Byte), c.valid = true → (State.resetWith c stream).Inv) ∧ State.reset.Inv

/-- R20, R21, R22, R23, R24, R25, R27, R44, R112, R113 together: every step from a state that meets the invariant
(not only from a reachable one) ends in a state that meets it. -/
def Obligations.StepKeepsTheInvariant : Prop :=
  ∀ s t : State, s.Inv → step s = .next t → t.Inv

/-! ### Decoder and encoder -/

/-- R61, R63, R66, R68, R69: words written out from the encoding, one for each instruction, one with its padding set,
and two unknown opcodes. -/
def Obligations.DecodeReadsRecordsWrittenFromTheEncoding : Prop :=
  decode [0x00, 0x00, 0x00, 0x00, 0x80, 0xFF] = .instr (.loadCon 8 255) ∧
  decode [0x00, 0xC0, 0x00, 0x1E, 0x00, 0x00] = .instr (.read 480 0) ∧
  decode [0x00, 0xDA, 0xBC, 0xDE, 0xF1, 0x23] = .instr (.write 11259375 291) ∧
  decode [0x01, 0xB0, 0x00, 0x00, 0x00, 0x20] = .instr (.pow 0 32) ∧
  decode [0xFF, 0xB0, 0x00, 0x00, 0x00, 0x20] = .instr (.pow 0 32) ∧
  decode [0xFF, 0xFF, 0xFF, 0xFF, 0xFF, 0xFF] = .unknownOpcode 31 ∧
  decode [0x00, 0x50, 0xF4, 0x23, 0xF0, 0x01] = .unknownOpcode 5

/-- R66: the six bytes as a big-endian unsigned integer, each field by shift and mask. -/
def Obligations.FieldsAreCutByShiftAndMask : Prop :=
  ∀ b0 b1 b2 b3 b4 b5 : Byte,
    let w := b0.toNat <<< 40 ||| b1.toNat <<< 32 ||| b2.toNat <<< 24 ||| b3.toNat <<< 16 ||| b4.toNat <<< 8 ||| b5.toNat
    ∃ f : Fields, decode [b0, b1, b2, b3, b4, b5] = select f ∧
      f.opcode.toNat = (w >>> 36) &&& 0x1F ∧
      f.operandHi.toNat = (w >>> 12) &&& 0xFFFFFF ∧
      f.operandLo.toNat = w &&& 0xFFF

/-- R69: a record is an instruction exactly when its opcode bits match; no other opcode is an instruction. The operands
are the zero-extended fields, `operand_hi` first. -/
def Obligations.OpcodeMultiplexerFollowsTheTable : Prop :=
  ∀ w : RecordWord,
    (w &&& 0x01F000000000#48 = 0x000000000000#48 ↔
      decodeWord w = .instr (.loadCon (w.toNat / 2 ^ 12 % 2 ^ 24) (w.toNat % 2 ^ 12))) ∧
    (w &&& 0x01F000000000#48 = 0x00C000000000#48 ↔
      decodeWord w = .instr (.read (w.toNat / 2 ^ 12 % 2 ^ 24) (w.toNat % 2 ^ 12))) ∧
    (w &&& 0x01F000000000#48 = 0x00D000000000#48 ↔
      decodeWord w = .instr (.write (w.toNat / 2 ^ 12 % 2 ^ 24) (w.toNat % 2 ^ 12))) ∧
    (w &&& 0x01F000000000#48 = 0x01B000000000#48 ↔
      decodeWord w = .instr (.pow (w.toNat / 2 ^ 12 % 2 ^ 24) (w.toNat % 2 ^ 12))) ∧
    ((w &&& 0x01F000000000#48 ∉
        [0x000000000000#48, 0x00C000000000#48, 0x00D000000000#48, 0x01B000000000#48]) ↔
      decodeWord w = .unknownOpcode (BitVec.ofNat 5 (w.toNat / 2 ^ 36)))

/-- R62, R68 (inferences the spec marks as its own): the decoder reads `w[40:0]` and nothing else, is injective on
those bits, and the encoder leaves the padding 0. -/
def Obligations.PaddingIsIgnoredOnDecodeAndZeroOnEncode : Prop :=
  (∀ w w' : RecordWord, (∀ k < 41, w.getLsbD k = w'.getLsbD k) → decodeWord w = decodeWord w') ∧
  (∀ w w' : RecordWord, fieldsOfWord w = fieldsOfWord w' → ∀ k < 41, w.getLsbD k = w'.getLsbD k) ∧
  (∀ i : Instr, (encodeWord i).toNat < 2 ^ 41)

/-- R75: every well-formed instruction, with every operand its record admits, decodes from its encoding; and (an
inference the spec marks as its own) encoding what was decoded gives the six bytes back exactly when the padding bits
were zero. -/
def Obligations.DecodeAndEncodeAgree : Prop :=
  (∀ i : Instr, i.wf = true → decode (encode i) = .instr i) ∧
  (∀ (w : RecordWord) (i : Instr), decode (bytesOfWord w) = .instr i →
    i.wf = true ∧ (encode i = bytesOfWord w ↔ ∀ k, 41 ≤ k → w.getLsbD k = false))

/-- R79: the packing formula, serialised big-endian into exactly six bytes, both operands passed through for every
mnemonic. -/
def Obligations.EncodePacksAndSerialisesBigEndian : Prop :=
  ∀ i : Instr, i.wf = true →
    let w := i.opcode.toNat <<< 36 ||| i.hi <<< 12 ||| i.lo
    (encode i).length = 6 ∧ ∀ k < 6, ((encode i)[k]?).map BitVec.toNat = some (w / 2 ^ (40 - 8 * k) % 256)

/-- R64, R65, R114: record `k` of a program stands at bytes `6k .. 6k+5`, `split` yields the records in order, and a
machine with `pc = k` fetches and decodes instruction `k`. -/
def Obligations.ProgramRecordsAreFetchedInOrder : Prop :=
  ∀ program : List Instr, (∀ i ∈ program, i.wf = true) →
    (encodeProgram program).length = 6 * program.length ∧
    split (encodeProgram program) = program.map encode ∧
    ∀ (s : State) (i : Instr), s.istream = encodeProgram program → program[s.pc]? = some i →
      s.fetch = encode i ∧ decode s.fetch = .instr i

/-- R77, R78, R80 (the order of the checks, negative operands and the meaning of `max` are the spec's decision D17):
what the assembler answers for every tuple. -/
def Obligations.AssemblerReportsTheFirstError : Prop :=
  (∀ t : SymbolicInstr, t.mnemonic ∉ ["LOAD_CON", "READ", "WRITE", "POW"] →
    assemble t = .error .unknownInstruction) ∧
  (∀ t : SymbolicInstr, t.mnemonic ∈ ["LOAD_CON", "READ", "WRITE", "POW"] →
    (¬ (0 ≤ t.hi ∧ t.hi < 2 ^ 24) → assemble t = .error (.fieldOverflow .operandHi t.hi 16777215)) ∧
    (0 ≤ t.hi ∧ t.hi < 2 ^ 24 → ¬ (0 ≤ t.lo ∧ t.lo < 2 ^ 12) →
      assemble t = .error (.fieldOverflow .operandLo t.lo 4095)) ∧
    (0 ≤ t.hi ∧ t.hi < 2 ^ 24 → 0 ≤ t.lo ∧ t.lo < 2 ^ 12 →
      ∃ i : Instr, i.wf = true ∧ symbolicOf i = t ∧ assemble t = .bytes (encode i))) ∧
  (∀ opcode hi lo : Int, ¬ (0 ≤ opcode ∧ opcode < 32) →
    packFields opcode hi lo = .error (.fieldOverflow .opcode opcode 31))

/-- R81: the concatenation of the encodings in program order, the empty stream for the empty program, and no encoding
if any tuple fails. -/
def Obligations.AssembledProgramIsTheConcatenation : Prop :=
  (∀ (program : List SymbolicInstr) (stream : List Byte),
    assembleProgram program = .bytes stream ↔
      ∃ records : List (List Byte),
        program.map assemble = records.map AsmResult.bytes ∧ stream = records.flatten) ∧
  assembleProgram [] = .bytes [] ∧
  (∀ (program : List SymbolicInstr) (t : SymbolicInstr) (e : AsmError), t ∈ program → assemble t = .error e →
    ∃ e', assembleProgram program = .error e')

/-! ### The bit-field datapath -/

/-- R41: the read formula, and its range. -/
def Obligations.FieldReadIsShiftAndMask : Prop :=
  ∀ (s : State) (a : Nat), s.field a = (s.mem >>> a) &&& s.cfg.maxValue ∧ s.field a ≤ s.cfg.maxValue

/-- R40, R42, R45 (R40's bit order and R45 are inferences the spec marks as its own): a field read and a field write,
bit by bit; the bits outside the window keep their value; the field written reads back. -/
def Obligations.FieldAccessBitByBit : Prop :=
  ∀ (s : State) (a v : Nat),
    (∀ j, (s.field a).testBit j = (decide (j < s.cfg.valueBits) && s.mem.testBit (a + j))) ∧
    (∀ i, a ≤ i → i < a + s.cfg.valueBits → (s.writeField a v).mem.testBit i = v.testBit (i - a)) ∧
    (∀ i, i < a ∨ a + s.cfg.valueBits ≤ i → (s.writeField a v).mem.testBit i = s.mem.testBit i) ∧
    (s.writeField a v).field a = v &&& s.cfg.maxValue

/-- R46 (an inference the spec marks as its own): what an overlapping higher field reads after a write. -/
def Obligations.OverlappingFieldAfterWrite : Prop :=
  ∀ (s : State) (a b v : Nat), v ≤ s.cfg.maxValue → a < b → b < a + s.cfg.valueBits →
    (s.writeField a v).field b =
      (v >>> (b - a)) |||
        (((s.mem >>> (a + s.cfg.valueBits)) &&& (2 ^ (b - a) - 1)) <<< (s.cfg.valueBits - (b - a)))

/-- R163 (a): two legal fields are independent exactly when their addresses are at least `W` apart. -/
def Obligations.FieldsAreIndependentExactlyWhenApart : Prop :=
  ∀ (c : Config) (a b : Nat), 1 ≤ c.sizeBytes → a ≤ c.maxAddress → b ≤ c.maxAddress →
    ((∀ (s : State) (v : Nat), s.cfg = c → Memory.wf c s.mem → (s.writeField a v).field b = s.field b) ↔
      (a + c.valueBits ≤ b ∨ b + c.valueBits ≤ a))

/-- R50 (an inference the spec marks as its own): a write is idempotent, and of two writes to one field the later
stands. -/
def Obligations.RepeatedFieldWriteIsIdempotent : Prop :=
  ∀ (s : State) (a u v : Nat),
    (s.writeField a v).writeField a v = s.writeField a v ∧
    (s.writeField a u).writeField a v = s.writeField a v

/-- R53 (an inference from R40 to R46 where it speaks of bits): after any sequence of field writes, a bit holds what
the last write that covered it put there, or, where none did, what it held before. -/
def Obligations.BitHoldsTheMostRecentWrite : Prop :=
  ∀ (s : State) (earlier later : List (Nat × Nat)) (a v i : Nat),
    (∀ p ∈ later, i < p.1 ∨ p.1 + s.cfg.valueBits ≤ i) →
    (a ≤ i → i < a + s.cfg.valueBits →
      ((earlier ++ (a, v) :: later).foldl (fun t p => t.writeField p.1 p.2) s).mem.testBit i = v.testBit (i - a)) ∧
    (later.foldl (fun t p => t.writeField p.1 p.2) s).mem.testBit i = s.mem.testBit i

/-- R44 (an inference the spec marks as its own): a write at a legal address keeps memory below `2^MEM_BITS`, and a
field read at a legal address depends on no bit at or above `MEM_BITS`. -/
def Obligations.LegalAccessStaysInsideMemory : Prop :=
  ∀ (s : State) (a v : Nat), a ≤ s.cfg.maxAddress →
    (Memory.wf s.cfg s.mem → Memory.wf s.cfg (s.writeField a v).mem) ∧
    ∀ high : Nat, ({ s with mem := s.mem % 2 ^ s.cfg.memBits + high * 2 ^ s.cfg.memBits } : State).field a = s.field a

/-! ### What each instruction does when no check fails -/

/-- R91, R116, R27: `LOAD_CON` completes: the window holds the literal, every bit outside it keeps its value, and
nothing but memory, the counter, `pc` and the events changes. The shape of the event is the spec's decision D13. -/
def Obligations.LoadConStoresTheLiteral : Prop :=
  ∀ (s : State) (address literal : Nat), address ≤ s.cfg.maxAddress → literal ≤ s.cfg.maxValue →
    ∃ m : Nat,
      exec (.loadCon address literal) s = .next
        { s with
          mem := m
          operationCounter := s.operationCounter + 1
          pc := s.pc + 1
          obs := bif s.cfg.loggingEnabled then s.obs ++ [.loadCon s.operationCounter address literal] else s.obs } ∧
      ∀ i, m.testBit i =
        if address ≤ i ∧ i < address + s.cfg.valueBits then literal.testBit (i - address) else s.mem.testBit i

/-- R92, R116, R27: `READ` completes, whatever its second operand: it reports the field, changes no bit of memory, and
moves only the counter, `pc` and the events. The shape of the event is the spec's decision D13. -/
def Obligations.ReadReportsTheField : Prop :=
  ∀ (s : State) (address unused : Nat), address ≤ s.cfg.maxAddress →
    exec (.read address unused) s = .next
      { s with
        operationCounter := s.operationCounter + 1
        pc := s.pc + 1
        obs := bif s.cfg.loggingEnabled then
            s.obs ++ [.read s.operationCounter address (s.mem / 2 ^ address % 2 ^ s.cfg.valueBits)]
          else s.obs }

/-- R93, R58, R116, R27: `WRITE` completes: the destination window holds the source field as it was before the
instruction, and every bit outside that window keeps its value, the source's among them. The shape of the event is the
spec's decision D13. -/
def Obligations.WriteCopiesTheSourceField : Prop :=
  ∀ (s : State) (src dst : Nat), src ≤ s.cfg.maxAddress → dst ≤ s.cfg.maxAddress →
    ∃ m : Nat,
      exec (.write src dst) s = .next
        { s with
          mem := m
          operationCounter := s.operationCounter + 1
          pc := s.pc + 1
          obs := bif s.cfg.loggingEnabled then
              s.obs ++ [.write s.operationCounter src dst (s.mem / 2 ^ src % 2 ^ s.cfg.valueBits)]
            else s.obs } ∧
      ∀ i, m.testBit i =
        if dst ≤ i ∧ i < dst + s.cfg.valueBits then s.mem.testBit (src + (i - dst)) else s.mem.testBit i

/-- R100, R58, R116, R27: `POW` completes: the base window holds `(b ** e) mod (2^W - 1)` of the two fields as they were
before the instruction, and every bit outside that window keeps its value. The shape of the event is the spec's
decision D13. -/
def Obligations.PowStoresThePowerOverTheBase : Prop :=
  ∀ (s : State) (base exponent : Nat), base ≤ s.cfg.maxAddress → exponent ≤ s.cfg.maxAddress →
    ∃ m b e r : Nat,
      b = s.mem / 2 ^ base % 2 ^ s.cfg.valueBits ∧
      e = s.mem / 2 ^ exponent % 2 ^ s.cfg.valueBits ∧
      r = b ^ e % (2 ^ s.cfg.valueBits - 1) ∧
      exec (.pow base exponent) s = .next
        { s with
          mem := m
          operationCounter := s.operationCounter + 1
          pc := s.pc + 1
          obs := bif s.cfg.loggingEnabled then
              s.obs ++ [.pow s.operationCounter base exponent b e r]
            else s.obs } ∧
      ∀ i, m.testBit i =
        if base ≤ i ∧ i < base + s.cfg.valueBits then r.testBit (i - base) else s.mem.testBit i

/-- R102: the result is the remainder modulo `2^W - 1`, never `MAX_VALUE`, and 0 where the power is a multiple of it;
at `W = 32`, `2 ** 32` and `65536 ** 2` both give 1. -/
def Obligations.PowResultIsARemainderModuloMaxValue : Prop :=
  (∀ (s : State) (base exponent : Nat), 1 ≤ s.cfg.sizeBytes →
    base ≤ s.cfg.maxAddress → exponent ≤ s.cfg.maxAddress →
    ∃ t : State, exec (.pow base exponent) s = .next t ∧
      t.field base = s.field base ^ s.field exponent % (2 ^ s.cfg.valueBits - 1) ∧
      t.field base ≤ s.cfg.maxValue - 1 ∧ t.field base ≠ s.cfg.maxValue ∧
      (s.cfg.maxValue ∣ s.field base ^ s.field exponent → t.field base = 0)) ∧
  powMod 2 32 (2 ^ 32 - 1) = 1 ∧ powMod 65536 2 (2 ^ 32 - 1) = 1

/-- R100, corner cases 1 and 3 to 7, and R101 (`0 ** 0 = 1` is the spec's decision D12): the results that need no
power, and the exponent field where the two fields do not overlap. -/
def Obligations.PowCornerCases : Prop :=
  ∀ (s : State) (base exponent : Nat), 1 ≤ s.cfg.sizeBytes →
    base ≤ s.cfg.maxAddress → exponent ≤ s.cfg.maxAddress →
    ∃ t : State, exec (.pow base exponent) s = .next t ∧
      (s.field exponent = 0 → t.field base = 1) ∧
      (s.field exponent = 1 → t.field base = s.field base % s.cfg.maxValue) ∧
      (s.field base = 0 → 1 ≤ s.field exponent → t.field base = 0) ∧
      (s.field base = 1 → t.field base = 1) ∧
      (s.field base = s.cfg.maxValue → 1 ≤ s.field exponent → t.field base = 0) ∧
      (base + s.cfg.valueBits ≤ exponent ∨ exponent + s.cfg.valueBits ≤ base →
        t.field exponent = s.field exponent)

/-- R94 (an inference the spec marks as its own): the same `LOAD_CON` twice leaves the memory of once, at every legal
address; the counter and the events count both. -/
def Obligations.LoadConTwiceLeavesTheSameMemory : Prop :=
  ∀ (s : State) (address literal : Nat), address ≤ s.cfg.maxAddress → literal ≤ s.cfg.maxValue →
    ∃ t u : State, exec (.loadCon address literal) s = .next t ∧ exec (.loadCon address literal) t = .next u ∧
      u.mem = t.mem ∧ u.operationCounter = s.operationCounter + 2 ∧
      u.obs.length = s.obs.length + (bif s.cfg.loggingEnabled then 2 else 0)

/-- R95 (an inference the spec marks as its own) and R93, corner case 1: `WRITE` leaves memory as `LOAD_CON` of the
source field does, and a field copied onto itself leaves memory unchanged. -/
def Obligations.WriteLeavesMemoryAsLoadConOfTheSource : Prop :=
  ∀ (s : State) (src dst : Nat), src ≤ s.cfg.maxAddress → dst ≤ s.cfg.maxAddress →
    ∃ t u : State, exec (.write src dst) s = .next t ∧ exec (.loadCon dst (s.field src)) s = .next u ∧
      t.mem = u.mem ∧ (src = dst → t.mem = s.mem)

/-- R73, R68 (inferences the spec marks as its own): two `READ` records that agree in opcode and `operand_hi` do the
same in every state, whatever `operand_lo` and the padding hold. -/
def Obligations.ReadRecordIgnoresItsLowOperand : Prop :=
  ∀ (w w' : RecordWord) (s : State), w.extractLsb' 36 5 = 12#5 → w.extractLsb' 12 29 = w'.extractLsb' 12 29 →
    dispatch (decode (bytesOfWord w)) s = dispatch (decode (bytesOfWord w')) s

/-! ### Faults -/

/-- R131, R136, R138 (the order of the checks is the spec's decision D11, the tuple D15): an address above
`MAX_ADDRESS`, in each operand that is an address; the first bad argument is the one reported, and nothing but
`status` and the fault record changes. -/
def Obligations.AddressAboveMaximumFaults : Prop :=
  ∀ s : State,
    (∀ address literal, s.cfg.maxAddress < address → exec (.loadCon address literal) s = .next
      { s with status := .fault, fault := some ⟨.addressOutOfRange, s.operationCounter, some 0, address⟩ }) ∧
    (∀ address unused, s.cfg.maxAddress < address → exec (.read address unused) s = .next
      { s with status := .fault, fault := some ⟨.addressOutOfRange, s.operationCounter, some 12, address⟩ }) ∧
    (∀ src dst, s.cfg.maxAddress < src → exec (.write src dst) s = .next
      { s with status := .fault, fault := some ⟨.addressOutOfRange, s.operationCounter, some 13, src⟩ }) ∧
    (∀ src dst, src ≤ s.cfg.maxAddress → s.cfg.maxAddress < dst → exec (.write src dst) s = .next
      { s with status := .fault, fault := some ⟨.addressOutOfRange, s.operationCounter, some 13, dst⟩ }) ∧
    (∀ base exponent, s.cfg.maxAddress < base → exec (.pow base exponent) s = .next
      { s with status := .fault, fault := some ⟨.addressOutOfRange, s.operationCounter, some 27, base⟩ }) ∧
    (∀ base exponent, base ≤ s.cfg.maxAddress → s.cfg.maxAddress < exponent → exec (.pow base exponent) s = .next
      { s with status := .fault, fault := some ⟨.addressOutOfRange, s.operationCounter, some 27, exponent⟩ })

/-- R132, R136, R138 (the order of the checks is the spec's decision D11): a literal above `MAX_VALUE` at a legal
address. -/
def Obligations.LiteralAboveMaximumFaults : Prop :=
  ∀ (s : State) (address literal : Nat), address ≤ s.cfg.maxAddress → s.cfg.maxValue < literal →
    exec (.loadCon address literal) s = .next
      { s with status := .fault, fault := some ⟨.valueOutOfRange, s.operationCounter, some 0, literal⟩ }

/-- R90, R131, R132, R146: an instruction completes exactly when its checks pass, and raises a fault exactly when one
fails; there is no other outcome. -/
def Obligations.InstructionCompletesExactlyWhenItsChecksPass : Prop :=
  ∀ (i : Instr) (s : State),
    let passes : Prop :=
      match i with
      | .loadCon address literal => address ≤ s.cfg.maxAddress ∧ literal ≤ s.cfg.maxValue
      | .read address _ => address ≤ s.cfg.maxAddress
      | .write src dst => src ≤ s.cfg.maxAddress ∧ dst ≤ s.cfg.maxAddress
      | .pow base exponent => base ≤ s.cfg.maxAddress ∧ exponent ≤ s.cfg.maxAddress
    ((∃ t, exec i s = .next t ∧ t.operationCounter = s.operationCounter + 1 ∧ t.pc = s.pc + 1 ∧
        t.status = s.status ∧ t.fault = s.fault ∧ t.cfg = s.cfg ∧ t.istream = s.istream) ↔ passes) ∧
    ((∃ k op arg, exec i s = .next (s.raise k op arg)) ↔ ¬ passes)

/-- R11 (c), R132: a record can raise `ValueOutOfRange` only where values are one byte wide, and there the literals
from 256 on do. -/
def Obligations.RecordLiteralFaultsOnlyAtOneByteValues : Prop :=
  (∀ (i : Instr) (s : State), i.wf = true → 2 ≤ s.cfg.valueSizeBytes →
    ∀ op arg, exec i s ≠ .next (s.raise .valueOutOfRange op arg)) ∧
  (∀ (s : State) (address literal : Nat), s.cfg.valueSizeBytes = 1 → address ≤ s.cfg.maxAddress →
    (256 ≤ literal ↔ exec (.loadCon address literal) s = .next (s.raise .valueOutOfRange (some 0) literal)))

/-- R72, R133, R136 (D9, D15: the spec's decisions): a record whose opcode is none of the four faults at dispatch,
whatever its operands hold. -/
def Obligations.UnknownOpcodeFaults : Prop :=
  ∀ (s : State) (w : RecordWord), 1 ≤ s.cfg.sizeBytes → s.status = .running → s.ilen % 6 = 0 →
    s.fetch = bytesOfWord w → w.extractLsb' 36 5 ∉ [0#5, 12#5, 13#5, 27#5] →
    step s = .next
      { s with
        status := .fault
        fault := some ⟨.unknownOpcode, s.operationCounter, some (w.extractLsb' 36 5), (w.extractLsb' 36 5).toNat⟩ }

/-- R112, R134, R136 (D8, D15: the spec's decisions): a stream whose length is no multiple of 6 faults before anything
is fetched, and changes nothing but `status` and the fault record. -/
def Obligations.MalformedStreamFaultsBeforeAnyRecord : Prop :=
  ∀ s : State, 1 ≤ s.cfg.sizeBytes → s.status = .running → s.ilen % 6 ≠ 0 →
    step s = .next
      { s with status := .fault, fault := some ⟨.malformedRecord, s.operationCounter, none, s.ilen⟩ }

/-- R136, R139 (D10, D13: the spec's decisions): whatever the fault, the step that raises it changes only `status` and
the fault record, whose index is the counter. -/
def Obligations.FaultingStepChangesOnlyStatusAndRecord : Prop :=
  ∀ s t : State, step s = .next t → t.status = .fault →
    ∃ (k : FaultKind) (op : Option (BitVec 5)) (arg : Nat),
      t = { s with status := .fault, fault := some ⟨k, s.operationCounter, op, arg⟩ }

/-- R24, R121, R140: there is no step out of DONE or FAULT. The outcome of asking for one is the model's way to say so:
a refusal (R121's word) after DONE, the fault outcome that reports the record after FAULT (log entry 10). -/
def Obligations.FinishedMachineHasNoStep : Prop :=
  ∀ s : State, 1 ≤ s.cfg.sizeBytes →
    (s.status = .done → step s = .refused .runIsOver) ∧
    (s.status = .fault → step s = .fault (.runAborted s.fault))

/-! ### The sequencer -/

/-- R111, R114, R115: where the six bytes at `pc` decode to an instruction, the step is that instruction, with nothing
around it. -/
def Obligations.StepRunsTheDecodedInstruction : Prop :=
  ∀ (s : State) (i : Instr), 1 ≤ s.cfg.sizeBytes → s.status = .running → s.ilen % 6 = 0 →
    decode ((s.istream.drop (6 * s.pc)).take 6) = .instr i → i.wf = true ∧ step s = exec i s

/-- R113, R35: when every record has been executed the step sets DONE and changes nothing else, and memory is the final
report. -/
def Obligations.ExhaustedStreamEndsTheRun : Prop :=
  ∀ s : State, 1 ≤ s.cfg.sizeBytes → s.status = .running → 6 * s.pc = s.ilen →
    step s = .next { s with status := .done } ∧
    ({ s with status := .done } : State).finalReport = some s.mem

/-- R120 (an inference the spec marks as its own): the empty stream runs to DONE in one step from reset. -/
def Obligations.EmptyStreamEndsAtOnce : Prop :=
  ∀ c : Config, c.valid = true →
    step (State.resetWith c []) = .next { State.resetWith c [] with status := .done }

/-- R35 (D14: the spec's decision): a final report exists exactly on DONE, and is `mem`. -/
def Obligations.FinalReportExactlyOnDone : Prop :=
  ∀ (s : State) (n : Nat), s.finalReport = some n ↔ s.status = .done ∧ s.mem = n

/-- R26: no step writes the stream; nor the construction parameters (spec/00_scope.md section 3). -/
def Obligations.StepNeverChangesStreamOrParameters : Prop :=
  ∀ s t : State, step s = .next t → t.istream = s.istream ∧ t.cfg = s.cfg

/-- R111, R116, R117, R27 (D10, D13: the spec's decisions): the three ways a step goes on: the run ends, a fault is
raised, or one record completes, with `pc` and the counter one higher and one event numbered by the old counter when
logging is on. -/
def Obligations.StepEndsFaultsOrCompletesOneRecord : Prop :=
  ∀ s t : State, step s = .next t → s.status = .running ∧
    (t = { s with status := .done } ∨
     (t.status = .fault ∧ t.mem = s.mem ∧ t.pc = s.pc ∧ t.operationCounter = s.operationCounter ∧ t.obs = s.obs) ∨
     (t.status = .running ∧ t.fault = s.fault ∧ t.pc = s.pc + 1 ∧ t.operationCounter = s.operationCounter + 1 ∧
      ∃ e : Event, e.index = s.operationCounter ∧
        t.obs = bif s.cfg.loggingEnabled then s.obs ++ [e] else s.obs))

/-- R27, R36: the observation stream and its parameter cannot be seen by a program: two machines that differ only in
them answer alike at every step and along every run, but for the events themselves. -/
def Obligations.LoggingDoesNotInfluenceTheMachine : Prop :=
  (∀ (s : State) (enabled : Bool) (events : List Event),
    match step s with
    | .next t => ∃ events', step (s.withLog enabled events) = .next (t.withLog enabled events')
    | .fault r => step (s.withLog enabled events) = .fault r
    | .refused r => step (s.withLog enabled events) = .refused r) ∧
  (∀ (n : Nat) (s t : State) (enabled : Bool) (events : List Event), Sys2Proof.core.run n s = .next t →
    ∃ events', Sys2Proof.core.run n (s.withLog enabled events) = .next (t.withLog enabled events'))

/-- R119: from every running state that meets the invariant the run reaches DONE or FAULT within one step more than the
records that are left. -/
def Obligations.EveryRunTerminates : Prop :=
  ∀ s : State, s.Inv → s.status = .running →
    ∃ (n : Nat) (t : State), n ≤ s.ilen / 6 - s.pc + 1 ∧ Sys2Proof.core.run n s = .next t ∧
      (t.status = .done ∨ t.status = .fault)

/-- R122, R113: the state in which a run ends with DONE: the whole stream executed, the counter one past it, no fault
record, the report the memory, and one event per record numbered from 1 when logging is on. -/
def Obligations.DoneReportsEveryRecord : Prop :=
  ∀ s t : State, s.Inv → step s = .next t → t.status = .done →
    t.finalReport = some s.mem ∧ 6 * t.pc = t.ilen ∧ t.operationCounter = t.ilen / 6 + 1 ∧ t.fault = none ∧
    t.obs.map Event.index = bif t.cfg.loggingEnabled then List.range' 1 (t.ilen / 6) else []

/-- R119, R122: fetching, decoding and stepping the stream of a program is executing its instructions in order: the run
from reset reaches the state the instruction list reaches, by DONE after the last record, or by the first fault. -/
def Obligations.RunRefinesExecutingTheProgram : Prop :=
  ∀ (c : Config) (program : List Instr), c.valid = true → (∀ i ∈ program, i.wf = true) →
    ∃ t : State, execProgram program (State.resetWith c (encodeProgram program)) = .next t ∧
      (t.status = .fault →
        t.pc < program.length ∧
        Sys2Proof.core.run (t.pc + 1) (State.resetWith c (encodeProgram program)) = .next t) ∧
      (t.status ≠ .fault →
        t.pc = program.length ∧
        Sys2Proof.core.run (program.length + 1) (State.resetWith c (encodeProgram program)) =
          .next { t with status := .done })

/-- The model's own device (log entry 4): a record placed by `withFetchWord` in any state of a machine that exists is
the instruction the next step runs. -/
def Obligations.PlacedRecordIsTheNextInstruction : Prop :=
  ∀ (s : State) (nbits w : Nat) (i : Instr), 1 ≤ s.cfg.sizeBytes → decodeTableWord nbits w = some i →
    step (s.withFetchWord nbits w) = exec i (s.withFetchWord nbits w)
end

