-- ==== Sys2Proof/Laws/Arithmetic.lean ====
section
/-! SUPPORT. Square-and-multiply is the formula of spec/41_arithmetic.md R100 (R103). -/

namespace Sys2Proof.Machine

theorem powModFuel_eq (m fuel b e : Nat) (he : e < 2 ^ fuel) : powModFuel m fuel b e = b ^ e % m := by
  induction fuel generalizing b e with
  | zero =>
    have : e = 0 := by simpa using he
    subst this; simp [powModFuel]
  | succ fuel ih =>
    have hhalf : e / 2 < 2 ^ fuel := by rw [pow_succ] at he; omega
    have hrest : powModFuel m fuel (b * b % m) (e / 2) = b ^ (2 * (e / 2)) % m := by
      rw [ih _ _ hhalf, ← Nat.pow_mod, pow_mul, pow_two]
    unfold powModFuel
    simp only [hrest]
    split
    · have hodd : e = 2 * (e / 2) + 1 := by omega
      conv_rhs => rw [hodd, pow_succ, Nat.mul_comm]
      exact Nat.mul_mod_mod _ _ _
    · rw [show 2 * (e / 2) = e by omega]

/-- `powMod` is `(b ** e) mod m` over the unbounded naturals (R100, R101, R103). -/
theorem powMod_eq (b e m : Nat) : powMod b e m = b ^ e % m :=
  powModFuel_eq m _ b e Nat.lt_log2_self

end Sys2Proof.Machine
end

