-- ==== Sys2Proof/Laws/Decode.lean ====
section
/-! SUPPORT. The decoder and the encoder: bytes and words, words and fields, and the shape of what they answer. -/

namespace Sys2Proof

/-- Bytes of a word, put together again (spec/30_encoding.md R63). -/
theorem wordOfBytes_bytesOfWord (w : RecordWord) :
    wordOfBytes (w.extractLsb' 40 8) (w.extractLsb' 32 8) (w.extractLsb' 24 8)
      (w.extractLsb' 16 8) (w.extractLsb' 8 8) (w.extractLsb' 0 8) = w := by
  apply BitVec.eq_of_getLsbD_eq
  intro i hi
  simp only [wordOfBytes, BitVec.getLsbD_append, BitVec.getLsbD_extractLsb']
  interval_cases i <;> simp

theorem decode_bytesOfWord (w : RecordWord) : decode (bytesOfWord w) = decodeWord w := by
  show decodeWord (wordOfBytes _ _ _ _ _ _) = decodeWord w
  rw [wordOfBytes_bytesOfWord]

theorem bytesOfWord_length (w : RecordWord) : (bytesOfWord w).length = 6 := rfl

theorem encode_length (i : Instr) : (encode i).length = 6 := rfl

/-- The fields of a packed record are the fields packed (spec/30_encoding.md R62, R66). -/
theorem fieldsOfWord_wordOfFields (f : Fields) : fieldsOfWord (wordOfFields f) = f := by
  obtain ⟨op, hi, lo⟩ := f
  simp only [fieldsOfWord, wordOfFields, Fields.mk.injEq]
  refine ⟨?_, ?_, ?_⟩ <;>
  · apply BitVec.eq_of_getLsbD_eq
    intro i hi
    simp only [BitVec.getLsbD_extractLsb', BitVec.getLsbD_or, BitVec.getLsbD_shiftLeft, BitVec.getLsbD_setWidth]
    interval_cases i <;> simp

/-- What selection answers for a known opcode (spec/30_encoding.md R69, R70). -/
theorem select_opcode (i : Instr) (hi : BitVec 24) (lo : BitVec 12) (h1 : hi.toNat = i.hi) (h2 : lo.toNat = i.lo) :
    select ⟨i.opcode, hi, lo⟩ = .instr i := by
  cases i <;> simp_all [select, Instr.opcode, Instr.hi, Instr.lo]

/-- The one way selection answers an instruction: its opcode and its operands are the fields'. -/
theorem select_eq_instr {f : Fields} {i : Instr} (h : select f = .instr i) :
    f.opcode = i.opcode ∧ f.operandHi.toNat = i.hi ∧ f.operandLo.toNat = i.lo := by
  unfold select at h
  split at h
  · cases h; simp_all [Instr.opcode, Instr.hi, Instr.lo]
  split at h
  · cases h; simp_all [Instr.opcode, Instr.hi, Instr.lo]
  split at h
  · cases h; simp_all [Instr.opcode, Instr.hi, Instr.lo]
  split at h
  · cases h; simp_all [Instr.opcode, Instr.hi, Instr.lo]
  · cases h

/-- Selection never answers `notSixBytes`. -/
theorem select_ne_notSixBytes (f : Fields) (n : Nat) : select f ≠ .notSixBytes n := by
  unfold select; repeat' split
  all_goals simp

/-- Six bytes are the bytes of the word they spell (spec/30_encoding.md R63). -/
theorem bytesOfWord_wordOfBytes (b0 b1 b2 b3 b4 b5 : Byte) :
    bytesOfWord (wordOfBytes b0 b1 b2 b3 b4 b5) = [b0, b1, b2, b3, b4, b5] := by
  simp only [bytesOfWord, List.cons.injEq, and_true]
  refine ⟨?_, ?_, ?_, ?_, ?_, ?_⟩ <;>
  · apply BitVec.eq_of_getLsbD_eq
    intro i hi
    simp only [wordOfBytes, BitVec.getLsbD_append, BitVec.getLsbD_extractLsb']
    interval_cases i <;> simp

/-- A list of six bytes is a record, and decodes as the word it spells. -/
theorem exists_word_of_length {bs : List Byte} (h : bs.length = 6) : ∃ w, bs = bytesOfWord w := by
  match bs, h with
  | [b0, b1, b2, b3, b4, b5], _ =>
    exact ⟨wordOfBytes b0 b1 b2 b3 b4 b5, (bytesOfWord_wordOfBytes b0 b1 b2 b3 b4 b5).symm⟩

/-- Only six bytes decode to an instruction or to an unknown opcode. -/
theorem decode_notSixBytes_iff (bs : List Byte) : (∃ n, decode bs = .notSixBytes n) ↔ bs.length ≠ 6 := by
  constructor
  · rintro ⟨n, hn⟩ h6
    obtain ⟨w, rfl⟩ := exists_word_of_length h6
    rw [decode_bytesOfWord] at hn
    exact select_ne_notSixBytes _ _ hn
  · intro h
    refine ⟨bs.length, ?_⟩
    unfold decode
    split
    · exact absurd rfl h
    · rfl

end Sys2Proof
end

