-- ==== Sys2Proof/Laws/Params.lean ====
section
/-! SUPPORT. The relations among the derived constants (spec/00_scope.md R6, R7). -/

namespace Sys2Proof

variable {c : Config}

theorem Config.valueSizeBytes_pos (h : 1 ≤ c.sizeBytes) : 1 ≤ c.valueSizeBytes := by
  unfold Config.valueSizeBytes; omega

theorem Config.valueSizeBytes_le (c : Config) : c.valueSizeBytes ≤ c.sizeBytes := by
  unfold Config.valueSizeBytes; omega

/-- The top field ends at the top of memory (R7). -/
theorem Config.maxAddress_add_valueBits (c : Config) : c.maxAddress + c.valueBits = c.memBits := by
  have := c.valueSizeBytes_le
  unfold Config.maxAddress Config.valueBits Config.memBits; omega

theorem Config.maxValue_lt (c : Config) : c.maxValue < 2 ^ c.valueBits := by
  have : 0 < 2 ^ c.valueBits := by positivity
  unfold Config.maxValue; omega

theorem Config.le_maxValue_iff (c : Config) (v : Nat) : v ≤ c.maxValue ↔ v < 2 ^ c.valueBits := by
  have : 0 < 2 ^ c.valueBits := by positivity
  unfold Config.maxValue; omega

theorem Config.eight_le_valueBits (h : 1 ≤ c.sizeBytes) : 8 ≤ c.valueBits := by
  have := Config.valueSizeBytes_pos h
  unfold Config.valueBits; omega

/-- The modulus of `POW` is at least 255 wherever a machine exists (R7). -/
theorem Config.maxValue_ge (h : 1 ≤ c.sizeBytes) : 255 ≤ c.maxValue := by
  have := Nat.pow_le_pow_right (n := 2) (by norm_num) (Config.eight_le_valueBits h)
  unfold Config.maxValue; omega

end Sys2Proof
end

