-- ==== Sys2Proof/Laws/Memory.lean ====
section
/-! SUPPORT. The bit-field datapath read bit by bit (spec/20_memory.md R40 to R45): each operation's specification,
from which the laws about fields, windows and the memory's form follow. -/

namespace Sys2Proof.Machine

theorem and_add_xor_and (x M : Nat) : (M &&& x) + (M ^^^ (M &&& x)) = M := by
  induction M using Nat.strongRecOn generalizing x with
  | _ M ih =>
    by_cases h0 : M = 0
    · subst h0; simp
    · have half := ih (M / 2) (by omega) (x / 2)
      have andHalf : (M &&& x) / 2 = (M / 2 &&& x / 2) := Nat.and_div_two
      have xorHalf : (M ^^^ (M &&& x)) / 2 = (M / 2 ^^^ (M &&& x) / 2) := Nat.xor_div_two
      rw [← andHalf] at half
      have andBit := @Nat.and_mod_two_eq_one M x
      have xorBit := @Nat.xor_mod_two_eq M (M &&& x)
      omega

/-- A cleared mask bit by bit: `M & ~x` (R12). -/
theorem clearBits_testBit (M x i : Nat) : (clearBits M x).testBit i = (M.testBit i && !x.testBit i) := by
  have h : clearBits M x = M ^^^ (M &&& x) := by
    have := and_add_xor_and x M
    unfold clearBits; omega
  rw [h, Nat.testBit_xor, Nat.testBit_and]
  cases M.testBit i <;> cases x.testBit i <;> rfl

/-- The field read bit by bit (R40, R41). -/
theorem memRead_testBit (mem a n i : Nat) :
    (memRead mem a n).testBit i = (decide (i < n) && mem.testBit (a + i)) := by
  simp [memRead, Nat.testBit_shiftRight]

/-- The field write bit by bit (R42, R45). -/
theorem memWrite_testBit (mem a n v i : Nat) :
    (memWrite mem a n v).testBit i =
      if a ≤ i ∧ i < a + n then v.testBit (i - a) else mem.testBit i := by
  unfold memWrite
  simp only [Nat.testBit_or, clearBits_testBit, Nat.testBit_shiftLeft, Nat.testBit_and, Nat.testBit_two_pow_sub_one]
  by_cases h : a ≤ i
  · by_cases h2 : i < a + n
    · simp [h, h2, show i - a < n by omega]
    · simp [h, h2, show ¬ i - a < n by omega]
  · simp [h]

/-- A field read is a quotient and a remainder: `(mem >> a) & (2^n - 1)` in arithmetic. -/
theorem memRead_eq_mod (mem a n : Nat) : memRead mem a n = mem / 2 ^ a % 2 ^ n := by
  rw [memRead, Nat.and_two_pow_sub_one_eq_mod, Nat.shiftRight_eq_div_pow]

theorem memRead_lt (mem a n : Nat) : memRead mem a n < 2 ^ n := by
  rw [memRead_eq_mod]; exact Nat.mod_lt _ (by positivity)

/-- A write whose window ends inside memory keeps memory in its form (R44). -/
theorem memWrite_lt {mem a n v bits : Nat} (hmem : mem < 2 ^ bits) (hwin : a + n ≤ bits) :
    memWrite mem a n v < 2 ^ bits := by
  apply Nat.lt_pow_two_of_testBit
  intro i hi
  have hge : ¬ (a ≤ i ∧ i < a + n) := by omega
  rw [memWrite_testBit, if_neg hge]
  exact Nat.testBit_eq_false_of_lt (lt_of_lt_of_le hmem (Nat.pow_le_pow_right (by norm_num) hi))

/-- A write followed by a read of the same window gives the low bits of the value written (R45). -/
theorem memRead_memWrite_same (mem a n v : Nat) : memRead (memWrite mem a n v) a n = v % 2 ^ n := by
  apply Nat.eq_of_testBit_eq
  intro i
  rw [memRead_testBit, memWrite_testBit, Nat.testBit_mod_two_pow]
  by_cases h : i < n
  · simp [h]
  · simp [h]

/-- The one operation that writes memory keeps its form at every legal address (R44). -/
theorem State.writeField_keeps_wf {s : State} {a v : Nat} (hmem : Memory.wf s.cfg s.mem) (ha : a ≤ s.cfg.maxAddress) :
    Memory.wf s.cfg (s.writeField a v).mem :=
  memWrite_lt hmem (by have := s.cfg.maxAddress_add_valueBits; omega)

/-- The reset memory has the form. -/
theorem State.reset_mem_wf : Memory.wf State.reset.cfg State.reset.mem :=
  Nat.two_pow_pos _

end Sys2Proof.Machine
end

