-- ==== Sys2Proof/Laws/PerInstr.lean ====
section
/-! SUPPORT. Statements made for every instruction as syntax, one lemma per constructor of Instr. -/

namespace Sys2Proof.Laws.RecordShape

/-- Every instruction is one six-byte record that carries its opcode in `w[40:36]` (spec/30_encoding.md R60, R61). -/
def Statement (i : Instr) : Prop :=
  (encode i).length = 6 ∧ (encodeWord i).extractLsb' 36 5 = i.opcode

theorem of_instr (i : Instr) : Statement i :=
  ⟨encode_length i, congrArg Fields.opcode (fieldsOfWord_wordOfFields i.fields)⟩

theorem loadCon (address literal : Nat) : Statement (.loadCon address literal) := of_instr _

theorem read (address unused : Nat) : Statement (.read address unused) := of_instr _

theorem write (src dst : Nat) : Statement (.write src dst) := of_instr _

theorem pow (base exponent : Nat) : Statement (.pow base exponent) := of_instr _

end Sys2Proof.Laws.RecordShape
end

