-- ==== Sys2Proof/Laws/State.lean ====
section
/-! SUPPORT. One lemma per field of State per update, each true by `rfl`, so that no proof unfolds a record update. -/

namespace Sys2Proof.Machine

variable (s : State)

/-! ### `State.writeField` -/

@[simp] theorem State.writeField_cfg (a v : Nat) : (s.writeField a v).cfg = s.cfg := rfl
@[simp] theorem State.writeField_istream (a v : Nat) : (s.writeField a v).istream = s.istream := rfl
@[simp] theorem State.writeField_mem (a v : Nat) : (s.writeField a v).mem = memWrite s.mem a s.cfg.valueBits v := rfl
@[simp] theorem State.writeField_operationCounter (a v : Nat) : (s.writeField a v).operationCounter = s.operationCounter := rfl
@[simp] theorem State.writeField_pc (a v : Nat) : (s.writeField a v).pc = s.pc := rfl
@[simp] theorem State.writeField_status (a v : Nat) : (s.writeField a v).status = s.status := rfl
@[simp] theorem State.writeField_fault (a v : Nat) : (s.writeField a v).fault = s.fault := rfl
@[simp] theorem State.writeField_obs (a v : Nat) : (s.writeField a v).obs = s.obs := rfl
@[simp] theorem State.writeField_ilen (a v : Nat) : (s.writeField a v).ilen = s.ilen := rfl
@[simp] theorem State.writeField_fetch (a v : Nat) : (s.writeField a v).fetch = s.fetch := rfl

/-! ### `State.raise` -/

@[simp] theorem State.raise_cfg (k : FaultKind) (op : Option (BitVec 5)) (arg : Nat) : (s.raise k op arg).cfg = s.cfg := rfl
@[simp] theorem State.raise_istream (k : FaultKind) (op : Option (BitVec 5)) (arg : Nat) : (s.raise k op arg).istream = s.istream := rfl
@[simp] theorem State.raise_mem (k : FaultKind) (op : Option (BitVec 5)) (arg : Nat) : (s.raise k op arg).mem = s.mem := rfl
@[simp] theorem State.raise_operationCounter (k : FaultKind) (op : Option (BitVec 5)) (arg : Nat) : (s.raise k op arg).operationCounter = s.operationCounter := rfl
@[simp] theorem State.raise_pc (k : FaultKind) (op : Option (BitVec 5)) (arg : Nat) : (s.raise k op arg).pc = s.pc := rfl
@[simp] theorem State.raise_status (k : FaultKind) (op : Option (BitVec 5)) (arg : Nat) : (s.raise k op arg).status = .fault := rfl
@[simp] theorem State.raise_fault (k : FaultKind) (op : Option (BitVec 5)) (arg : Nat) : (s.raise k op arg).fault = some ⟨k, s.operationCounter, op, arg⟩ := rfl
@[simp] theorem State.raise_obs (k : FaultKind) (op : Option (BitVec 5)) (arg : Nat) : (s.raise k op arg).obs = s.obs := rfl
@[simp] theorem State.raise_ilen (k : FaultKind) (op : Option (BitVec 5)) (arg : Nat) : (s.raise k op arg).ilen = s.ilen := rfl
@[simp] theorem State.raise_fetch (k : FaultKind) (op : Option (BitVec 5)) (arg : Nat) : (s.raise k op arg).fetch = s.fetch := rfl

/-! ### `State.emit` -/

@[simp] theorem State.emit_cfg (e : Event) : (s.emit e).cfg = s.cfg := rfl
@[simp] theorem State.emit_istream (e : Event) : (s.emit e).istream = s.istream := rfl
@[simp] theorem State.emit_mem (e : Event) : (s.emit e).mem = s.mem := rfl
@[simp] theorem State.emit_operationCounter (e : Event) : (s.emit e).operationCounter = s.operationCounter := rfl
@[simp] theorem State.emit_pc (e : Event) : (s.emit e).pc = s.pc := rfl
@[simp] theorem State.emit_status (e : Event) : (s.emit e).status = s.status := rfl
@[simp] theorem State.emit_fault (e : Event) : (s.emit e).fault = s.fault := rfl
@[simp] theorem State.emit_obs (e : Event) : (s.emit e).obs = bif s.cfg.loggingEnabled then s.obs ++ [e] else s.obs := rfl
@[simp] theorem State.emit_ilen (e : Event) : (s.emit e).ilen = s.ilen := rfl
@[simp] theorem State.emit_fetch (e : Event) : (s.emit e).fetch = s.fetch := rfl

/-! ### `State.advance` -/

@[simp] theorem State.advance_cfg : (s.advance).cfg = s.cfg := rfl
@[simp] theorem State.advance_istream : (s.advance).istream = s.istream := rfl
@[simp] theorem State.advance_mem : (s.advance).mem = s.mem := rfl
@[simp] theorem State.advance_operationCounter : (s.advance).operationCounter = s.operationCounter + 1 := rfl
@[simp] theorem State.advance_pc : (s.advance).pc = s.pc + 1 := rfl
@[simp] theorem State.advance_status : (s.advance).status = s.status := rfl
@[simp] theorem State.advance_fault : (s.advance).fault = s.fault := rfl
@[simp] theorem State.advance_obs : (s.advance).obs = s.obs := rfl
@[simp] theorem State.advance_ilen : (s.advance).ilen = s.ilen := rfl

/-! ### `State.complete` -/

@[simp] theorem State.complete_cfg (e : Event) : (s.complete e).cfg = s.cfg := rfl
@[simp] theorem State.complete_istream (e : Event) : (s.complete e).istream = s.istream := rfl
@[simp] theorem State.complete_mem (e : Event) : (s.complete e).mem = s.mem := rfl
@[simp] theorem State.complete_operationCounter (e : Event) : (s.complete e).operationCounter = s.operationCounter + 1 := rfl
@[simp] theorem State.complete_pc (e : Event) : (s.complete e).pc = s.pc + 1 := rfl
@[simp] theorem State.complete_status (e : Event) : (s.complete e).status = s.status := rfl
@[simp] theorem State.complete_fault (e : Event) : (s.complete e).fault = s.fault := rfl
@[simp] theorem State.complete_obs (e : Event) : (s.complete e).obs = bif s.cfg.loggingEnabled then s.obs ++ [e] else s.obs := rfl
@[simp] theorem State.complete_ilen (e : Event) : (s.complete e).ilen = s.ilen := rfl

/-! ### `State.finish` -/

@[simp] theorem State.finish_cfg : (s.finish).cfg = s.cfg := rfl
@[simp] theorem State.finish_istream : (s.finish).istream = s.istream := rfl
@[simp] theorem State.finish_mem : (s.finish).mem = s.mem := rfl
@[simp] theorem State.finish_operationCounter : (s.finish).operationCounter = s.operationCounter := rfl
@[simp] theorem State.finish_pc : (s.finish).pc = s.pc := rfl
@[simp] theorem State.finish_status : (s.finish).status = .done := rfl
@[simp] theorem State.finish_fault : (s.finish).fault = s.fault := rfl
@[simp] theorem State.finish_obs : (s.finish).obs = s.obs := rfl
@[simp] theorem State.finish_ilen : (s.finish).ilen = s.ilen := rfl
@[simp] theorem State.finish_fetch : (s.finish).fetch = s.fetch := rfl

end Sys2Proof.Machine
end

