-- ==== Sys2Proof/Laws/Sequencer.lean ====
section
/-! SUPPORT. Each shared operation's specification, and the inversion of the meanings and of the step: what a next
state can be. Later proofs cite these and unfold no meaning. -/

namespace Sys2Proof.Machine

/-! ### Operand checks -/

theorem requireAddress_legal {op : BitVec 5} {a : Nat} {s : State} (h : a ≤ s.cfg.maxAddress)
    (goOn : Host.Outcome State Fault Refusal) : requireAddress op a s goOn = goOn :=
  if_neg (by omega)

theorem requireAddress_illegal {op : BitVec 5} {a : Nat} {s : State} (h : s.cfg.maxAddress < a)
    (goOn : Host.Outcome State Fault Refusal) :
    requireAddress op a s goOn = .next (s.raise .addressOutOfRange (some op) a) :=
  if_pos h

theorem requireLiteral_legal {op : BitVec 5} {v : Nat} {s : State} (h : v ≤ s.cfg.maxValue)
    (goOn : Host.Outcome State Fault Refusal) : requireLiteral op v s goOn = goOn :=
  if_neg (by omega)

theorem requireLiteral_illegal {op : BitVec 5} {v : Nat} {s : State} (h : s.cfg.maxValue < v)
    (goOn : Host.Outcome State Fault Refusal) :
    requireLiteral op v s goOn = .next (s.raise .valueOutOfRange (some op) v) :=
  if_pos h

/-! ### What an instruction can do -/

/-- The memory writes an instruction can make: none, or one field at a legal address. -/
inductive Stored (s : State) : State → Prop where
  | nothing : Stored s s
  | field (a v : Nat) (h : a ≤ s.cfg.maxAddress) : Stored s (s.writeField a v)

/-- Every instruction either raises a fault, or stores at most one field and completes with one event numbered by the
counter (spec/40_data_transfer.md R90). -/
theorem exec_cases (i : Instr) (s : State) :
    (∃ k op arg, exec i s = .next (s.raise k op arg)) ∨
    (∃ u e, Stored s u ∧ e.index = s.operationCounter ∧ exec i s = .next (u.complete e)) := by
  cases i with
  | loadCon address literal =>
    by_cases ha : address ≤ s.cfg.maxAddress
    · by_cases hl : literal ≤ s.cfg.maxValue
      · exact .inr ⟨_, _, .field address literal ha, rfl, (requireAddress_legal ha _).trans (requireLiteral_legal hl _)⟩
      · exact .inl ⟨_, _, _, (requireAddress_legal ha _).trans (requireLiteral_illegal (by omega) _)⟩
    · exact .inl ⟨_, _, _, requireAddress_illegal (by omega) _⟩
  | read address unused =>
    by_cases ha : address ≤ s.cfg.maxAddress
    · exact .inr ⟨_, _, .nothing, rfl, requireAddress_legal ha _⟩
    · exact .inl ⟨_, _, _, requireAddress_illegal (by omega) _⟩
  | write src dst =>
    by_cases ha : src ≤ s.cfg.maxAddress
    · by_cases hd : dst ≤ s.cfg.maxAddress
      · exact .inr ⟨_, _, .field dst _ hd, rfl, (requireAddress_legal ha _).trans (requireAddress_legal hd _)⟩
      · exact .inl ⟨_, _, _, (requireAddress_legal ha _).trans (requireAddress_illegal (by omega) _)⟩
    · exact .inl ⟨_, _, _, requireAddress_illegal (by omega) _⟩
  | pow base exponent =>
    by_cases ha : base ≤ s.cfg.maxAddress
    · by_cases hd : exponent ≤ s.cfg.maxAddress
      · exact .inr ⟨_, _, .field base _ ha, rfl, (requireAddress_legal ha _).trans (requireAddress_legal hd _)⟩
      · exact .inl ⟨_, _, _, (requireAddress_legal ha _).trans (requireAddress_illegal (by omega) _)⟩
    · exact .inl ⟨_, _, _, requireAddress_illegal (by omega) _⟩

/-! ### What a step can do -/

/-- A step that answers a next state was asked of a RUNNING machine that exists, and is the running step. -/
theorem step_next {s t : State} (h : step s = .next t) :
    1 ≤ s.cfg.sizeBytes ∧ s.status = .running ∧ runningStep s = .next t := by
  unfold step sequencerStep at h
  split at h
  · cases h
  · split at h
    · exact ⟨by omega, by assumption, h⟩
    · cases h
    · cases h

/-- As many of the six bytes as the stream still has (R114). -/
theorem State.fetch_length (s : State) : s.fetch.length = min 6 (s.ilen - 6 * s.pc) := by
  simp [State.fetch, State.ilen]

/-- Every next state of a step: the run ends, a fault is raised, or an instruction completes (R111). -/
theorem step_cases {s t : State} (h : step s = .next t) :
    (s.ilen % 6 = 0 ∧ 6 * s.pc = s.ilen ∧ t = s.finish) ∨
    (∃ k op arg, t = s.raise k op arg) ∨
    (s.ilen % 6 = 0 ∧ 6 * s.pc < s.ilen ∧ ∃ i u e, decode s.fetch = .instr i ∧ exec i s = .next t ∧
      Stored s u ∧ e.index = s.operationCounter ∧ t = u.complete e) := by
  obtain ⟨-, -, hr⟩ := step_next h
  unfold runningStep at hr
  split at hr
  · cases hr; exact .inr (.inl ⟨_, _, _, rfl⟩)
  split at hr
  · cases hr; exact .inl ⟨by omega, by assumption, rfl⟩
  cases hd : decode s.fetch with
  | instr i =>
    rw [hd] at hr
    have hsix : s.fetch.length = 6 := by
      by_contra hne
      obtain ⟨n, hn⟩ := (decode_notSixBytes_iff s.fetch).2 hne
      rw [hd] at hn; cases hn
    rw [State.fetch_length] at hsix
    obtain ⟨k, op, arg, he⟩ | ⟨u, e, hu, hi, he⟩ := exec_cases i s
    · refine .inr (.inl ⟨k, op, arg, ?_⟩)
      have hr' : exec i s = .next t := hr
      rw [he] at hr'; cases hr'; rfl
    · refine .inr (.inr ⟨by omega, by omega, i, u, e, rfl, hr, hu, hi, ?_⟩)
      have hr' : exec i s = .next t := hr
      rw [he] at hr'; cases hr'; rfl
  | unknownOpcode op =>
    rw [hd] at hr
    cases hr; exact .inr (.inl ⟨_, _, _, rfl⟩)
  | notSixBytes n =>
    rw [hd] at hr
    cases hr

/-! ### Runs -/

/-- A run that steps on is the run from the state stepped to. -/
theorem run_next {n : Nat} {s t : State} (h : step s = .next t) :
    Sys2Proof.core.run (n + 1) s = Sys2Proof.core.run n t := by
  have hstep : Sys2Proof.core.step s = .next t := h
  simp only [Host.Core.run, hstep]

/-- A run stops where its first step faults. -/
theorem run_fault {n : Nat} {s : State} {r : Fault} (h : step s = .fault r) :
    Sys2Proof.core.run (n + 1) s = .fault r := by
  have hstep : Sys2Proof.core.step s = .fault r := h
  simp only [Host.Core.run, hstep]

/-- A run stops where its first step is refused. -/
theorem run_refused {n : Nat} {s : State} {r : Refusal} (h : step s = .refused r) :
    Sys2Proof.core.run (n + 1) s = .refused r := by
  have hstep : Sys2Proof.core.step s = .refused r := h
  simp only [Host.Core.run, hstep]

end Sys2Proof.Machine
end

