-- ==== Sys2Proof/Tests/Slice0.lean ====
section
/-! SUPPORT. Small tests, each about one step or one operation, with the expected results of spec/95_test_vectors.md
(its vector's name stands in each test's comment), and a witness for each statement that has hypotheses. -/

namespace Sys2Proof.Tests

open Sys2Proof.Machine

/-- The reset machine at the defaults with this memory. -/
def withMem (mem : Nat) : State := { State.reset with mem := mem }

/-- The same at `VALUE_SIZE_BYTES_REQ = 1`, so that `W = 8`. -/
def narrow (mem : Nat) : State :=
  { withMem mem with cfg := { Config.default with valueSizeBytesReq := 1 } }

/-- The machine at the defaults about to run this stream. -/
def withStream (stream : List Byte) : State := State.resetWith Config.default stream

/-- The memory after an instruction that raised no fault. -/
def memAfter (i : Instr) (s : State) : Option Nat :=
  (nextState (exec i s)).bind fun t => if t.status = .fault then none else some t.mem

/-- The events after an instruction. -/
def obsAfter (i : Instr) (s : State) : Option (List Event) :=
  (nextState (exec i s)).map (·.obs)

/-- The fault record after an instruction, with the memory it left. -/
def faultAfter (i : Instr) (s : State) : Option (Option FaultRecord × Nat) :=
  (nextState (exec i s)).map fun t => (t.fault, t.mem)

/-! ### WellFormed: an ill-formed term for each check -/

theorem test_wf_accepts_largest : (Instr.pow 16777215 4095).wf = true := by decide
theorem test_wf_refuses_wide_operand_hi : (Instr.loadCon 16777216 0).wf = false := by decide
theorem test_wf_refuses_wide_operand_lo : (Instr.loadCon 0 4096).wf = false := by decide

/-! ### Decoding: words written out from the encoding of spec/30_encoding.md R61 -/

-- LOAD_CON 8, 255 (E8): opcode 00000, operand_hi 8, operand_lo 0xFF
theorem test_decode_loadCon : decode [0x00, 0x00, 0x00, 0x00, 0x80, 0xFF] = .instr (.loadCon 8 255) := by decide
-- READ 480, 0 (E4): opcode 01100
theorem test_decode_read : decode [0x00, 0xC0, 0x00, 0x1E, 0x00, 0x00] = .instr (.read 480 0) := by decide
-- WRITE 0xABCDEF, 0x123 (E7): opcode 01101
theorem test_decode_write : decode [0x00, 0xDA, 0xBC, 0xDE, 0xF1, 0x23] = .instr (.write 11259375 291) := by decide
-- POW 0, 32 (E3): opcode 11011
theorem test_decode_pow : decode [0x01, 0xB0, 0x00, 0x00, 0x00, 0x20] = .instr (.pow 0 32) := by decide
-- DC1: all seven padding bits set
theorem test_decode_ignores_padding : decode [0xFE, 0x00, 0x00, 0x00, 0x00, 0x05] = .instr (.loadCon 0 5) := by decide
-- DC6, DC9: the neighbours of READ and POW
theorem test_decode_unknown_11 : decode [0x00, 0xB0, 0x00, 0x00, 0x00, 0x00] = .unknownOpcode 11 := by decide
theorem test_decode_unknown_28 : decode [0x01, 0xC0, 0x00, 0x00, 0x00, 0x00] = .unknownOpcode 28 := by decide
theorem test_decode_five_bytes : decode [0, 0, 0, 0, 0] = .notSixBytes 5 := by decide
-- E9 and E7, the other way
theorem test_encode_pow : encode (.pow 16777215 4095) = [0x01, 0xBF, 0xFF, 0xFF, 0xFF, 0xFF] := by decide
theorem test_encode_write : encode (.write 11259375 291) = [0x00, 0xDA, 0xBC, 0xDE, 0xF1, 0x23] := by decide
-- the table's own numbering: match of POW, operand_lo = 32
theorem test_decodeTableWord_pow : decodeTableWord 48 0x01B000000020 = some (.pow 0 32) := by decide
theorem test_decodeTableWord_unknown : decodeTableWord 48 0x00E000000000 = none := by decide

/-! ### The assembler (A1, A3, A6, A7, A8) -/

theorem test_assemble_wide_hi :
    assemble ⟨"LOAD_CON", 16777216, 0⟩ = .error (.fieldOverflow .operandHi 16777216 16777215) := by decide
theorem test_assemble_wide_lo : assemble ⟨"LOAD_CON", 0, 4096⟩ = .error (.fieldOverflow .operandLo 4096 4095) := by decide
theorem test_assemble_case_sensitive : assemble ⟨"load_con", 0, 0⟩ = .error .unknownInstruction := by decide
theorem test_assemble_mnemonic_first : assemble ⟨"MOVE", 16777216, 4096⟩ = .error .unknownInstruction := by decide
theorem test_assemble_default_operand :
    assemble { mnemonic := "READ", hi := 5 } = .bytes [0x00, 0xC0, 0x00, 0x00, 0x50, 0x00] := by decide

/-! ### Parameters (CF1, CF3, CF4, CF7) -/

theorem test_params_default :
    (Config.default.valueBits, Config.default.maxAddress, Config.default.maxValue) = (32, 480, 4294967295) := by decide
theorem test_params_clamped_up :
    let c : Config := { Config.default with valueSizeBytesReq := -3 }
    (c.valueBits, c.maxAddress, c.maxValue) = (8, 504, 255) := by decide
theorem test_params_clamped_down :
    let c : Config := { Config.default with valueSizeBytesReq := 100 }
    (c.valueBits, c.maxAddress) = (512, 0) := by decide
-- CF9
theorem test_construct_refuses_size_zero : construct 0 4 true 0 [] = .refused .noSuchMachine := by decide

/-! ### LOAD_CON -/

-- LC3: the window is cleared, the bits below it are kept
theorem test_loadCon_clears_its_window : memAfter (.loadCon 4 0) (withMem 0xFFF) = some 0xF := by decide +kernel
-- LC10: both arguments bad, the address is reported
theorem test_loadCon_address_checked_first :
    faultAfter (.loadCon 505 256) (narrow 0) = some (some ⟨.addressOutOfRange, 1, some 0, 505⟩, 0) := by decide +kernel

/-! ### READ -/

-- RD3: a field that straddles two written fields
theorem test_read_straddles :
    obsAfter (.read 4 0) (withMem 0x30000007D) = some [.read 1 4 805306375] := by decide +kernel
-- RD2: the unused operand is not checked
theorem test_read_unused_operand :
    obsAfter (.read 32 4095) (withMem 0x30000007D) = some [.read 1 32 3] := by decide +kernel

/-! ### WRITE -/

-- WR3: overlapping source and destination, the source read first
theorem test_write_overlap : memAfter (.write 0 4) (withMem 0x1FF) = some 0x1FFF := by decide +kernel
-- WR7: both addresses bad, the source is reported
theorem test_write_source_checked_first :
    faultAfter (.write 500 600) (withMem 0x1FF) = some (some ⟨.addressOutOfRange, 1, some 13, 500⟩, 0x1FF) := by decide +kernel

/-! ### POW -/

-- PW5: the modulus is 2^32 - 1, not 2^32
theorem test_pow_modulus : memAfter (.pow 0 32) (withMem (2 + 32 * 2 ^ 32)) = some 0x2000000001 := by decide +kernel
-- PW11: an exponent that only modular exponentiation evaluates
theorem test_pow_huge_exponent :
    memAfter (.pow 0 32) (withMem (3 + 0xFFFFFFFF * 2 ^ 32)) = some 0xFFFFFFFF8E38E38E := by decide +kernel

/-! ### The sequencer -/

-- P4, record 2: an unknown opcode, operands not examined
theorem test_step_unknown_opcode :
    nextState (step (withStream [0x00, 0x50, 0xF4, 0x23, 0xF0, 0x01])) =
      some { withStream [0x00, 0x50, 0xF4, 0x23, 0xF0, 0x01] with
        status := .fault, fault := some ⟨.unknownOpcode, 1, some 5, 5⟩ } := by decide +kernel
-- SQ2
theorem test_step_malformed :
    (nextState (step (withStream [0, 0, 0, 0, 0]))).map (fun t => (t.status, t.fault)) =
      some (.fault, some ⟨.malformedRecord, 1, none, 5⟩) := by decide +kernel
-- SQ1
theorem test_step_empty_stream : (nextState (step State.reset)).map (·.status) = some .done := by decide +kernel
-- a record placed by withFetchWord is the first instruction after reset
theorem test_withFetchWord_runs :
    (nextState (step (State.reset.withFetchWord 48 0x00000000080FF))).map (·.mem) = some 0xFF00 := by decide +kernel

/-! ### Witnesses: a concrete state and operands that meet the hypotheses of each statement -/

/-- P1 after its first record: `LOAD_CON 0, 5` has run, `LOAD_CON 32, 3` and `POW 0, 32` are left. -/
def midRun : State :=
  { withStream [0, 0, 0, 0, 0, 5, 0, 0, 0, 2, 0, 3, 1, 0xB0, 0, 0, 0, 0x20] with
    mem := 5, operationCounter := 2, pc := 1, obs := [.loadCon 1 0 5] }

/-- P1 after its last record. -/
def afterLast : State :=
  { midRun with
    mem := 0x30000007D, operationCounter := 4, pc := 3
    obs := [.loadCon 1 0 5, .loadCon 2 32 3, .pow 3 0 32 5 3 125] }

theorem midRun_inv : midRun.Inv where
  exists_machine := by decide
  mem_wf := by decide +kernel
  counter_eq := by decide
  pc_le := by decide
  done_at_end := by decide
  fault_iff := by decide
  fault_index := by intro r h; cases h
  malformed_idle := by decide
  obs_numbered := by decide

theorem afterLast_inv : afterLast.Inv where
  exists_machine := by decide
  mem_wf := by decide +kernel
  counter_eq := by decide
  pc_le := by decide
  done_at_end := by decide
  fault_iff := by decide
  fault_index := by intro r h; cases h
  malformed_idle := by decide
  obs_numbered := by decide

theorem witness_ConstructionClampsAndDerives :
    (0 : Int) < 1 ∧ ((1 : Int) ≤ 1 ∧ 255 < 2 ^ (8 * (1 : Int).toNat)) ∧ (1 : Int) ≤ 64 := by decide

theorem witness_ResetMeetsTheInvariant : Config.default.valid = true ∧
    ({ Config.default with sizeBytes := 1, memReset := 255 } : Config).valid = true := by decide +kernel

theorem witness_StepKeepsTheInvariant : ∃ s t : State, s.Inv ∧ step s = .next t :=
  ⟨afterLast, { afterLast with status := .done }, afterLast_inv, rfl⟩

theorem witness_PaddingIsIgnoredOnDecodeAndZeroOnEncode : ∃ w w' : RecordWord,
    (∀ k < 41, w.getLsbD k = w'.getLsbD k) ∧ fieldsOfWord w = fieldsOfWord w' ∧ w ≠ w' :=
  ⟨0xFFB000000020#48, 0x01B000000020#48, by decide, by decide, by decide⟩

theorem witness_DecodeAndEncodeAgree : (Instr.pow 16777215 4095).wf = true ∧
    decode (bytesOfWord 0xFFB000000020#48) = .instr (.pow 0 32) := by decide

theorem witness_EncodePacksAndSerialisesBigEndian : (Instr.read 16777215 4095).wf = true ∧ 5 < 6 := by decide

theorem witness_ProgramRecordsAreFetchedInOrder : ∃ (program : List Instr) (s : State) (i : Instr),
    (∀ j ∈ program, j.wf = true) ∧ s.istream = encodeProgram program ∧ program[s.pc]? = some i :=
  ⟨[.loadCon 0 5, .loadCon 32 3, .pow 0 32], midRun, .loadCon 32 3, by decide, by decide, by decide⟩

theorem witness_AssemblerReportsTheFirstError : ∃ t1 t2 t3 t4 : SymbolicInstr,
    t1.mnemonic ∉ ["LOAD_CON", "READ", "WRITE", "POW"] ∧
    (t2.mnemonic ∈ ["LOAD_CON", "READ", "WRITE", "POW"] ∧ ¬ (0 ≤ t2.hi ∧ t2.hi < 2 ^ 24)) ∧
    (t3.mnemonic ∈ ["LOAD_CON", "READ", "WRITE", "POW"] ∧ (0 ≤ t3.hi ∧ t3.hi < 2 ^ 24) ∧ ¬ (0 ≤ t3.lo ∧ t3.lo < 2 ^ 12)) ∧
    (t4.mnemonic ∈ ["LOAD_CON", "READ", "WRITE", "POW"] ∧ (0 ≤ t4.hi ∧ t4.hi < 2 ^ 24) ∧ (0 ≤ t4.lo ∧ t4.lo < 2 ^ 12)) ∧
    ¬ ((0 : Int) ≤ 32 ∧ (32 : Int) < 32) :=
  ⟨⟨"NOP", 0, 0⟩, ⟨"READ", 16777216, 4096⟩, ⟨"WRITE", 16777215, -1⟩, ⟨"POW", 16777215, 4095⟩, by decide⟩

theorem witness_AssembledProgramIsTheConcatenation :
    assemble ⟨"NOP", 0, 0⟩ = .error .unknownInstruction ∧
    assembleProgram [⟨"LOAD_CON", 0, 5⟩, ⟨"POW", 0, 32⟩] = .bytes [0, 0, 0, 0, 0, 5, 1, 0xB0, 0, 0, 0, 0x20] := by decide

-- the lowest and the highest overlapping address at W = 32
theorem witness_OverlappingFieldAfterWrite : 4294967295 ≤ State.reset.cfg.maxValue ∧
    0 < 1 ∧ 1 < 0 + State.reset.cfg.valueBits ∧ 0 < 31 ∧ 31 < 0 + State.reset.cfg.valueBits := by decide

-- 31 apart overlaps, 32 apart does not
theorem witness_FieldsAreIndependentExactlyWhenApart : 1 ≤ Config.default.sizeBytes ∧
    0 ≤ Config.default.maxAddress ∧ 480 ≤ Config.default.maxAddress ∧
    ¬ (0 + Config.default.valueBits ≤ 31) ∧ 0 + Config.default.valueBits ≤ 32 := by decide

theorem witness_LegalAccessStaysInsideMemory :
    480 ≤ midRun.cfg.maxAddress ∧ Memory.wf midRun.cfg midRun.mem := by decide +kernel

theorem witness_BitHoldsTheMostRecentWrite : ∃ (s : State) (later : List (Nat × Nat)) (a i : Nat),
    (∀ p ∈ later, i < p.1 ∨ p.1 + s.cfg.valueBits ≤ i) ∧ a ≤ i ∧ i < a + s.cfg.valueBits ∧ later ≠ [] :=
  ⟨State.reset, [(0, 7), (33, 1)], 1, 32, by decide, by decide, by decide, by decide⟩

-- the highest legal address and literal
theorem witness_LoadConStoresTheLiteral :
    480 ≤ midRun.cfg.maxAddress ∧ 4294967295 ≤ midRun.cfg.maxValue := by decide

theorem witness_ReadReportsTheField : 480 ≤ midRun.cfg.maxAddress := by decide

theorem witness_WriteCopiesTheSourceField : 0 ≤ midRun.cfg.maxAddress ∧ 480 ≤ midRun.cfg.maxAddress := by decide

theorem witness_PowStoresThePowerOverTheBase : 480 ≤ midRun.cfg.maxAddress ∧ 0 ≤ midRun.cfg.maxAddress := by decide

theorem witness_PowResultIsARemainderModuloMaxValue : 1 ≤ midRun.cfg.sizeBytes ∧ 480 ≤ midRun.cfg.maxAddress ∧
    ((withMem (0xFFFFFFFF + 2 ^ 32)).cfg.maxValue ∣
      (withMem (0xFFFFFFFF + 2 ^ 32)).field 0 ^ (withMem (0xFFFFFFFF + 2 ^ 32)).field 32) := by decide +kernel

/-- One state for each clause, base at 0 and exponent at 32: the two fields meet without overlapping. -/
theorem witness_PowCornerCases :
    1 ≤ midRun.cfg.sizeBytes ∧ 0 ≤ midRun.cfg.maxAddress ∧ 32 ≤ midRun.cfg.maxAddress ∧
    midRun.field 32 = 0 ∧
    (withMem (7 + 2 ^ 32)).field 32 = 1 ∧
    ((withMem (5 * 2 ^ 32)).field 0 = 0 ∧ 1 ≤ (withMem (5 * 2 ^ 32)).field 32) ∧
    (withMem (1 + 5 * 2 ^ 32)).field 0 = 1 ∧
    ((withMem (4294967295 + 2 ^ 32)).field 0 = (withMem (4294967295 + 2 ^ 32)).cfg.maxValue ∧
      1 ≤ (withMem (4294967295 + 2 ^ 32)).field 32) ∧
    0 + midRun.cfg.valueBits ≤ 32 := by decide +kernel

theorem witness_LoadConTwiceLeavesTheSameMemory :
    480 ≤ midRun.cfg.maxAddress ∧ 4294967295 ≤ midRun.cfg.maxValue := by decide

theorem witness_WriteLeavesMemoryAsLoadConOfTheSource :
    0 ≤ midRun.cfg.maxAddress ∧ 480 ≤ midRun.cfg.maxAddress ∧ (480 : Nat) = 480 := by decide

theorem witness_ReadRecordIgnoresItsLowOperand : ∃ w w' : RecordWord,
    w.extractLsb' 36 5 = 12#5 ∧ w.extractLsb' 12 29 = w'.extractLsb' 12 29 ∧ w ≠ w' :=
  ⟨0x00C000020000#48, 0xFEC000020FFF#48, by decide, by decide, by decide⟩

-- the lowest illegal address, and the highest legal first argument beside it
theorem witness_AddressAboveMaximumFaults :
    State.reset.cfg.maxAddress < 481 ∧ 480 ≤ State.reset.cfg.maxAddress := by decide

theorem witness_LiteralAboveMaximumFaults :
    480 ≤ State.reset.cfg.maxAddress ∧ State.reset.cfg.maxValue < 4294967296 ∧
    504 ≤ (narrow 0).cfg.maxAddress ∧ (narrow 0).cfg.maxValue < 256 := by decide

theorem witness_RecordLiteralFaultsOnlyAtOneByteValues :
    (Instr.loadCon 0 4095).wf = true ∧ 2 ≤ State.reset.cfg.valueSizeBytes ∧
    (narrow 0).cfg.valueSizeBytes = 1 ∧ 504 ≤ (narrow 0).cfg.maxAddress ∧ 256 ≤ 256 := by decide

theorem witness_UnknownOpcodeFaults : ∃ (s : State) (w : RecordWord), 1 ≤ s.cfg.sizeBytes ∧ s.status = .running ∧
    s.ilen % 6 = 0 ∧ s.fetch = bytesOfWord w ∧ w.extractLsb' 36 5 ∉ [0#5, 12#5, 13#5, 27#5] :=
  ⟨withStream [0x01, 0xC0, 0, 0, 0, 0], 0x01C000000000#48, by decide⟩

theorem witness_MalformedStreamFaultsBeforeAnyRecord : ∃ s : State, 1 ≤ s.cfg.sizeBytes ∧ s.status = .running ∧
    s.ilen % 6 ≠ 0 :=
  ⟨withStream [0, 0, 0, 0, 0], by decide⟩

theorem witness_FaultingStepChangesOnlyStatusAndRecord : ∃ s t : State, step s = .next t ∧ t.status = .fault :=
  ⟨withStream [0], (withStream [0]).raise .malformedRecord none 1, rfl, rfl⟩

theorem witness_FinishedMachineHasNoStep : ∃ s u : State, 1 ≤ s.cfg.sizeBytes ∧ s.status = .done ∧
    1 ≤ u.cfg.sizeBytes ∧ u.status = .fault :=
  ⟨{ afterLast with status := .done }, (withStream [0]).raise .malformedRecord none 1, by decide⟩

theorem witness_StepRunsTheDecodedInstruction : ∃ (s : State) (i : Instr), 1 ≤ s.cfg.sizeBytes ∧
    s.status = .running ∧ s.ilen % 6 = 0 ∧ decode ((s.istream.drop (6 * s.pc)).take 6) = .instr i :=
  ⟨midRun, .loadCon 32 3, by decide⟩

theorem witness_ExhaustedStreamEndsTheRun :
    1 ≤ afterLast.cfg.sizeBytes ∧ afterLast.status = .running ∧ 6 * afterLast.pc = afterLast.ilen := by decide

theorem witness_EmptyStreamEndsAtOnce : Config.default.valid = true := by decide +kernel

theorem witness_StepNeverChangesStreamOrParameters : ∃ s t : State, step s = .next t ∧ s.istream ≠ [] :=
  ⟨afterLast, { afterLast with status := .done }, rfl, by decide⟩

/-- One step of each kind: the end of a run, a fault, a completed record. -/
theorem witness_StepEndsFaultsOrCompletesOneRecord :
    (nextState (step afterLast)).isSome = true ∧ (nextState (step (withStream [0]))).isSome = true ∧
    (nextState (step midRun)).map (·.pc) = some 2 := by decide +kernel

theorem witness_LoggingDoesNotInfluenceTheMachine : ∃ s t : State, Sys2Proof.core.run 1 s = .next t ∧ s.obs ≠ [] :=
  ⟨afterLast, { afterLast with status := .done }, rfl, by decide⟩

theorem witness_EveryRunTerminates : ∃ s : State, s.Inv ∧ s.status = .running ∧ s.pc ≠ 0 :=
  ⟨midRun, midRun_inv, rfl, by decide⟩

theorem witness_DoneReportsEveryRecord : ∃ s t : State, s.Inv ∧ step s = .next t ∧ t.status = .done ∧ s.pc ≠ 0 :=
  ⟨afterLast, { afterLast with status := .done }, afterLast_inv, rfl, rfl, by decide⟩

/-- One program that ends with DONE and one that faults on its second record (P5). -/
theorem witness_RunRefinesExecutingTheProgram : Config.default.valid = true ∧
    (∀ i ∈ [Instr.loadCon 0 5, .loadCon 32 3, .pow 0 32], i.wf = true) ∧
    (∀ i ∈ [Instr.loadCon 0 9, .write 0 481, .loadCon 64 1], i.wf = true) := by decide +kernel

theorem witness_PlacedRecordIsTheNextInstruction :
    1 ≤ midRun.cfg.sizeBytes ∧ decodeTableWord 48 0x01B000000020 = some (.pow 0 32) := by decide

end Sys2Proof.Tests
end

/-! SUPPORT. The statements from spec/00_scope.md: what construction answers and derives (O2), and which instructions
raise `ValueOutOfRange` (O33). -/

namespace Sys2Proof

/-! ### The derived constants -/

/-- The domain of the parameters, as a proposition (R5, R9). -/
theorem Config.valid_iff (c : Config) : c.valid = true ↔ 1 ≤ c.sizeBytes ∧ c.memReset < 2 ^ c.memBits := by
  simp [Config.valid]

/-- The clamp of R6 over the integers: no value is lost in the natural that holds it. -/
theorem Config.valueSizeBytes_cast (c : Config) :
    (c.valueSizeBytes : Int) = min (max c.valueSizeBytesReq 1) c.sizeBytes := by
  unfold Config.valueSizeBytes; omega

/-- `MAX_ADDRESS` over the integers: its subtraction never goes below zero (R7). -/
theorem Config.maxAddress_cast (c : Config) : (c.maxAddress : Int) = (c.sizeBytes - c.valueSizeBytes) * 8 := by
  have := c.valueSizeBytes_le
  unfold Config.maxAddress; omega

theorem Config.eight_dvd_maxAddress (c : Config) : 8 ∣ c.maxAddress :=
  Nat.dvd_mul_left 8 _

theorem Config.maxValue_eq_of_oneByte {c : Config} (h : c.valueSizeBytes = 1) : c.maxValue = 255 := by
  simp [Config.maxValue, Config.valueBits, h]

/-- From two bytes on, `MAX_VALUE` is at least `2^16 - 1`. -/
theorem Config.maxValue_ge_of_twoBytes {c : Config} (h : 2 ≤ c.valueSizeBytes) : 65535 ≤ c.maxValue := by
  have hbits : 16 ≤ c.valueBits := by unfold Config.valueBits; omega
  have hpow : 2 ^ 16 ≤ 2 ^ c.valueBits := Nat.pow_le_pow_right (by norm_num) hbits
  unfold Config.maxValue; omega

/-- The arguments of a well-formed instruction fit their fields (R62). -/
theorem Instr.wf_iff (i : Instr) : i.wf = true ↔ i.hi < 2 ^ 24 ∧ i.lo < 2 ^ 12 := by
  simp [Instr.wf]

namespace Machine

/-! ### Construction -/

/-- The configuration that construction makes of the host's parameters. -/
def requestedConfig (size req : Int) (logging : Bool) (memReset : Nat) : Config :=
  { sizeBytes := size.toNat, valueSizeBytesReq := req, loggingEnabled := logging, memReset := memReset }

section
variable {size req : Int} {logging : Bool} {memReset : Nat} {stream : List Byte}

/-- Construction in the domain of the parameters is reset (R160). -/
theorem construct_eq_machine (h : (requestedConfig size req logging memReset).valid = true) :
    construct size req logging memReset stream =
      .machine (State.resetWith (requestedConfig size req logging memReset) stream) :=
  if_pos h

/-- Construction outside the domain of the parameters is refused (R5, R9). -/
theorem construct_eq_refused (h : ¬ (requestedConfig size req logging memReset).valid = true) :
    construct size req logging memReset stream = .refused .noSuchMachine :=
  if_neg h

/-- The request is in the domain exactly when the integer size is and the reset memory fits it. -/
theorem requestedConfig_valid_iff :
    (requestedConfig size req logging memReset).valid = true ↔ 1 ≤ size ∧ memReset < 2 ^ (8 * size.toNat) := by
  have hsize : 1 ≤ size.toNat ↔ 1 ≤ size := by omega
  rw [Config.valid_iff, ← hsize]
  rfl

theorem requestedConfig_sizeBytes_cast (h : 1 ≤ size) :
    ((requestedConfig size req logging memReset).sizeBytes : Int) = size :=
  Int.toNat_of_nonneg (by omega)

end

/-- Settles O2: the machine is the reset of `requestedConfig`, and each constant is read off the laws about `Config`. -/
theorem constructionClampsAndDerives : Obligations.ConstructionClampsAndDerives := by
  unfold Obligations.ConstructionClampsAndDerives
  intro size req logging memReset stream
  constructor
  · intro hsmall
    refine construct_eq_refused fun hvalid => ?_
    obtain ⟨hsize, -⟩ := requestedConfig_valid_iff.1 hvalid
    omega
  · intro hsize hmem
    have hvalid := (requestedConfig_valid_iff (req := req) (logging := logging)).2 ⟨hsize, hmem⟩
    have hcast := requestedConfig_sizeBytes_cast (req := req) (logging := logging) (memReset := memReset) hsize
    obtain ⟨hexists, -⟩ := (Config.valid_iff _).1 hvalid
    refine ⟨_, construct_eq_machine hvalid, hcast, rfl, rfl, ?clamp, rfl, ?maxAddress, rfl,
      Config.maxAddress_add_valueBits _, Config.maxValue_ge hexists, Config.eight_dvd_maxAddress _⟩
    case clamp => rw [Config.valueSizeBytes_cast, hcast]; rfl
    case maxAddress => rw [Config.maxAddress_cast, hcast]

/-! ### Which instructions raise `ValueOutOfRange` -/

section
variable {s : State} {goOn : Host.Outcome State Fault Refusal} {op : Option (BitVec 5)} {arg : Nat}

/-- The check of an address raises no `ValueOutOfRange`: one that is raised comes from what follows the check. -/
theorem requireAddress_eq_raise_value_iff {opcode : BitVec 5} {a : Nat} :
    requireAddress opcode a s goOn = .next (s.raise .valueOutOfRange op arg) ↔
      a ≤ s.cfg.maxAddress ∧ goOn = .next (s.raise .valueOutOfRange op arg) := by
  by_cases ha : a ≤ s.cfg.maxAddress
  · rw [requireAddress_legal ha]
    exact (and_iff_right ha).symm
  · rw [requireAddress_illegal (by omega)]
    simp [State.raise, ha]

/-- The check of a literal raises `ValueOutOfRange` with its own opcode and literal, or leaves it to what follows. -/
theorem requireLiteral_eq_raise_value_iff {opcode : BitVec 5} {v : Nat} :
    requireLiteral opcode v s goOn = .next (s.raise .valueOutOfRange op arg) ↔
      (s.cfg.maxValue < v ∧ some opcode = op ∧ v = arg) ∨
      (v ≤ s.cfg.maxValue ∧ goOn = .next (s.raise .valueOutOfRange op arg)) := by
  by_cases hv : v ≤ s.cfg.maxValue
  · rw [requireLiteral_legal hv]
    simp [hv]
  · have hlt : s.cfg.maxValue < v := by omega
    rw [requireLiteral_illegal hlt]
    simp [State.raise, hv, hlt]

/-- A completed instruction is no raised fault: completion moves the counter, a fault does not (R21). -/
theorem ne_raise_of_counter_eq_succ {t : State} {k : FaultKind} (h : t.operationCounter = s.operationCounter + 1) :
    t ≠ s.raise k op arg := by
  rintro rfl
  rw [State.raise_operationCounter] at h
  omega

@[simp] theorem State.complete_ne_raise (e : Event) (k : FaultKind) : s.complete e ≠ s.raise k op arg :=
  ne_raise_of_counter_eq_succ rfl

@[simp] theorem State.writeField_complete_ne_raise (a v : Nat) (e : Event) (k : FaultKind) :
    (s.writeField a v).complete e ≠ s.raise k op arg :=
  ne_raise_of_counter_eq_succ rfl

/-- `ValueOutOfRange` is raised by `LOAD_CON` at a legal address with a literal above `MAX_VALUE`, and by nothing else
(R132). -/
theorem exec_eq_raise_value_iff {i : Instr} :
    exec i s = .next (s.raise .valueOutOfRange op arg) ↔
      ∃ address, i = .loadCon address arg ∧ address ≤ s.cfg.maxAddress ∧ s.cfg.maxValue < arg ∧ op = some 0 := by
  cases i with
  | loadCon address literal =>
    show execLoadCon address literal s = _ ↔ _
    rw [execLoadCon, requireAddress_eq_raise_value_iff, requireLiteral_eq_raise_value_iff]
    simp only [Host.Outcome.next.injEq, State.writeField_complete_ne_raise, and_false, or_false]
    constructor
    · rintro ⟨ha, hl, rfl, rfl⟩
      exact ⟨address, rfl, ha, hl, rfl⟩
    · rintro ⟨_, ⟨rfl, rfl⟩, ha, hl, rfl⟩
      exact ⟨ha, hl, rfl, rfl⟩
  | read address unused =>
    show execRead address s = _ ↔ _
    rw [execRead, requireAddress_eq_raise_value_iff]
    simp
  | write src dst =>
    show execWrite src dst s = _ ↔ _
    rw [execWrite, requireAddress_eq_raise_value_iff, requireAddress_eq_raise_value_iff]
    simp
  | pow base exponent =>
    show execPow base exponent s = _ ↔ _
    rw [execPow, requireAddress_eq_raise_value_iff, requireAddress_eq_raise_value_iff]
    simp

end

/-- Settles O33: the literal of a record is below `2^12`, between the `MAX_VALUE` of one byte and that of two. -/
theorem recordLiteralFaultsOnlyAtOneByteValues : Obligations.RecordLiteralFaultsOnlyAtOneByteValues := by
  unfold Obligations.RecordLiteralFaultsOnlyAtOneByteValues
  constructor
  · intro i s hwf hwide op arg hraise
    obtain ⟨address, rfl, -, habove, -⟩ := exec_eq_raise_value_iff.1 hraise
    obtain ⟨-, hfits⟩ := (Instr.wf_iff _).1 hwf
    have hfits : arg < 2 ^ 12 := hfits
    have hmax := Config.maxValue_ge_of_twoBytes hwide
    omega
  · intro s address literal hone haddress
    rw [exec_eq_raise_value_iff, Config.maxValue_eq_of_oneByte hone]
    constructor
    · intro hlit
      exact ⟨address, rfl, haddress, by omega, rfl⟩
    · rintro ⟨_, -, -, habove, -⟩
      omega

end Machine

end Sys2Proof

/-! SUPPORT. The statements from spec/10_state.md: the reset state (O1, O3), the invariant (O4), what no step changes
(O42), what logging does not influence (O44), and the final report (O41). -/

namespace Sys2Proof

/-- The parameters of the default machine are in their domain (R5, R9). -/
theorem Config.default_valid : Config.default.valid = true :=
  (Config.valid_iff _).2 ⟨by decide, Nat.two_pow_pos _⟩

namespace Machine

/-! ### The reset state, field by field -/

section
variable (c : Config) (stream : List Byte)

@[simp] theorem State.resetWith_cfg : (State.resetWith c stream).cfg = c := rfl
@[simp] theorem State.resetWith_istream : (State.resetWith c stream).istream = stream := rfl
@[simp] theorem State.resetWith_mem : (State.resetWith c stream).mem = c.memReset := rfl
@[simp] theorem State.resetWith_operationCounter : (State.resetWith c stream).operationCounter = 1 := rfl
@[simp] theorem State.resetWith_pc : (State.resetWith c stream).pc = 0 := rfl
@[simp] theorem State.resetWith_status : (State.resetWith c stream).status = .running := rfl
@[simp] theorem State.resetWith_fault : (State.resetWith c stream).fault = none := rfl
@[simp] theorem State.resetWith_obs : (State.resetWith c stream).obs = [] := rfl

end

/-- `MEM_RESET` is 0 at the default parameters (R9, D3). -/
theorem State.reset_mem : State.reset.mem = 0 := rfl

/-- Settles O1: the laws about `State.resetWith`, of which `State.reset` is the default machine. -/
theorem resetLeavesTheSpecifiedState : Obligations.ResetLeavesTheSpecifiedState := by
  unfold Obligations.ResetLeavesTheSpecifiedState
  refine ⟨fun c stream => ?_, State.reset_mem, ?_⟩
  · simp
  · simp [State.reset]

/-- Construction establishes the invariant; the domain of the parameters is what the sizes and the memory need. -/
theorem State.resetWith_inv {c : Config} (hvalid : c.valid = true) (stream : List Byte) :
    (State.resetWith c stream).Inv := by
  obtain ⟨hsize, hmem⟩ := (Config.valid_iff c).1 hvalid
  exact
    { exists_machine := hsize
      mem_wf := hmem
      counter_eq := rfl
      pc_le := Nat.zero_le _
      done_at_end := by simp
      fault_iff := by simp
      fault_index := by simp
      malformed_idle := fun _ => rfl
      obs_numbered := by simp }

/-- Settles O3: `State.resetWith_inv`, at the given parameters and at the default ones. -/
theorem resetMeetsTheInvariant : Obligations.ResetMeetsTheInvariant := by
  unfold Obligations.ResetMeetsTheInvariant
  exact ⟨fun _ stream hvalid => State.resetWith_inv hvalid stream, State.resetWith_inv Config.default_valid []⟩

/-! ### What a store leaves unchanged -/

section
variable {s u : State}

theorem Stored.cfg_eq (h : Stored s u) : u.cfg = s.cfg := by cases h <;> rfl
theorem Stored.istream_eq (h : Stored s u) : u.istream = s.istream := by cases h <;> rfl
theorem Stored.ilen_eq (h : Stored s u) : u.ilen = s.ilen := by cases h <;> rfl
theorem Stored.operationCounter_eq (h : Stored s u) : u.operationCounter = s.operationCounter := by cases h <;> rfl
theorem Stored.pc_eq (h : Stored s u) : u.pc = s.pc := by cases h <;> rfl
theorem Stored.status_eq (h : Stored s u) : u.status = s.status := by cases h <;> rfl

end

/-- Settles O42: the three ways a step goes on, none of which writes the stream or the parameters. -/
theorem stepNeverChangesStreamOrParameters : Obligations.StepNeverChangesStreamOrParameters := by
  unfold Obligations.StepNeverChangesStreamOrParameters
  intro s t hstep
  obtain ⟨-, -, rfl⟩ | ⟨k, op, arg, rfl⟩ | ⟨-, -, i, u, e, -, -, hstored, -, rfl⟩ := step_cases hstep
  · exact ⟨s.finish_istream, s.finish_cfg⟩
  · exact ⟨s.raise_istream k op arg, s.raise_cfg k op arg⟩
  · exact ⟨(u.complete_istream e).trans hstored.istream_eq, (u.complete_cfg e).trans hstored.cfg_eq⟩

/-! ### Each operation of the machine keeps the invariant -/

section
variable {s u : State}

/-- No fault record stands while the machine runs (R25). -/
theorem State.Inv.fault_eq_none (hinv : s.Inv) (hrun : s.status = .running) : s.fault = none := by
  cases hfault : s.fault with
  | none => rfl
  | some r =>
    have hstatus : s.status = .fault := hinv.fault_iff.2 (by simp [hfault])
    rw [hrun] at hstatus
    cases hstatus

/-- A store at a legal address keeps the invariant (R44). -/
theorem Stored.keeps_inv (h : Stored s u) (hinv : s.Inv) : u.Inv := by
  cases h with
  | nothing => exact hinv
  | field a v ha => exact { hinv with mem_wf := State.writeField_keeps_wf hinv.mem_wf ha }

/-- Raising a fault keeps the invariant: the record it fills carries the counter (R136). -/
theorem State.raise_keeps_inv (hinv : s.Inv) (k : FaultKind) (op : Option (BitVec 5)) (arg : Nat) :
    (s.raise k op arg).Inv :=
  { hinv with
    done_at_end := by simp
    fault_iff := by simp
    fault_index := by simp }

/-- The end of the run keeps the invariant where the records are exhausted (R113). -/
theorem State.finish_keeps_inv (hinv : s.Inv) (hrun : s.status = .running) (hend : 6 * s.pc = s.ilen) :
    s.finish.Inv :=
  { hinv with
    done_at_end := fun _ => hend
    fault_iff := by simp [hinv.fault_eq_none hrun] }

/-- An event numbered by the counter continues the numbering of the events (R27). -/
theorem State.Inv.complete_obs_numbered (hinv : s.Inv) {e : Event} (he : e.index = s.operationCounter) :
    (s.complete e).obs.map Event.index = bif s.cfg.loggingEnabled then List.range' 1 (s.pc + 1) else [] := by
  have hobs := hinv.obs_numbered
  have hindex : e.index = 1 + s.pc := by rw [he, hinv.counter_eq, Nat.add_comm]
  rw [State.complete_obs]
  cases hlog : s.cfg.loggingEnabled with
  | false => simpa [hlog] using hobs
  | true =>
    have hobs : s.obs.map Event.index = List.range' 1 s.pc := by simpa [hlog] using hobs
    simp [hobs, hindex, List.range'_concat]

/-- Completing a record keeps the invariant while a whole record is left (R116). -/
theorem State.complete_keeps_inv (hinv : s.Inv) (hrun : s.status = .running) (hwhole : s.ilen % 6 = 0)
    (hleft : 6 * s.pc < s.ilen) {e : Event} (he : e.index = s.operationCounter) : (s.complete e).Inv where
  exists_machine := hinv.exists_machine
  mem_wf := hinv.mem_wf
  counter_eq := congrArg (· + 1) hinv.counter_eq
  pc_le := by rw [State.complete_pc, State.complete_ilen]; omega
  done_at_end := by simp [hrun]
  fault_iff := hinv.fault_iff
  fault_index := by simp [hinv.fault_eq_none hrun]
  malformed_idle := fun hmalformed => absurd hwhole hmalformed
  obs_numbered := hinv.complete_obs_numbered he

end

/-- Settles O4: the three ways a step goes on, each an operation that keeps the invariant. -/
theorem stepKeepsTheInvariant : Obligations.StepKeepsTheInvariant := by
  unfold Obligations.StepKeepsTheInvariant
  intro s t hinv hstep
  obtain ⟨-, hrun, -⟩ := step_next hstep
  obtain ⟨-, hend, rfl⟩ | ⟨k, op, arg, rfl⟩ | ⟨hwhole, hleft, i, u, e, -, -, hstored, he, rfl⟩ := step_cases hstep
  · exact State.finish_keeps_inv hinv hrun hend
  · exact State.raise_keeps_inv hinv k op arg
  · rw [← hstored.status_eq] at hrun
    rw [← hstored.ilen_eq] at hwhole hleft
    rw [← hstored.pc_eq] at hleft
    rw [← hstored.operationCounter_eq] at he
    exact State.complete_keeps_inv (hstored.keeps_inv hinv) hrun hwhole hleft he

/-! ### What `State.withLog` leaves unchanged, and how it commutes with the operations -/

section
variable (s : State) (enabled : Bool) (events : List Event)

@[simp] theorem State.withLog_sizeBytes : (s.withLog enabled events).cfg.sizeBytes = s.cfg.sizeBytes := rfl
@[simp] theorem State.withLog_maxAddress : (s.withLog enabled events).cfg.maxAddress = s.cfg.maxAddress := rfl
@[simp] theorem State.withLog_maxValue : (s.withLog enabled events).cfg.maxValue = s.cfg.maxValue := rfl
@[simp] theorem State.withLog_operationCounter :
    (s.withLog enabled events).operationCounter = s.operationCounter := rfl
@[simp] theorem State.withLog_pc : (s.withLog enabled events).pc = s.pc := rfl
@[simp] theorem State.withLog_status : (s.withLog enabled events).status = s.status := rfl
@[simp] theorem State.withLog_fault : (s.withLog enabled events).fault = s.fault := rfl
@[simp] theorem State.withLog_ilen : (s.withLog enabled events).ilen = s.ilen := rfl
@[simp] theorem State.withLog_fetch : (s.withLog enabled events).fetch = s.fetch := rfl
@[simp] theorem State.withLog_field (a : Nat) : (s.withLog enabled events).field a = s.field a := rfl

theorem State.withLog_raise (k : FaultKind) (op : Option (BitVec 5)) (arg : Nat) :
    (s.withLog enabled events).raise k op arg = (s.raise k op arg).withLog enabled events := rfl

theorem State.withLog_finish : (s.withLog enabled events).finish = s.finish.withLog enabled events := rfl

theorem State.withLog_writeField (a v : Nat) :
    (s.withLog enabled events).writeField a v = (s.writeField a v).withLog enabled events := rfl

/-- Completion is where the events part: the replaced list grows by the replaced parameter (R27). -/
theorem State.withLog_complete (e : Event) :
    (s.withLog enabled events).complete e =
      (s.complete e).withLog enabled (bif enabled then events ++ [e] else events) := rfl

end

/-- The two outcomes are one outcome but for logging: a next state is equal once its logging parameter is `enabled` and
its event list is replaced (R27). -/
inductive SameButLog (enabled : Bool) :
    Host.Outcome State Fault Refusal → Host.Outcome State Fault Refusal → Prop where
  | next (t : State) (events : List Event) : SameButLog enabled (.next t) (.next (t.withLog enabled events))
  | fault (r : Fault) : SameButLog enabled (.fault r) (.fault r)
  | refused (r : Refusal) : SameButLog enabled (.refused r) (.refused r)

section
variable {enabled : Bool} {o o' : Host.Outcome State Fault Refusal}

theorem SameButLog.of_next {t : State} (h : SameButLog enabled (.next t) o') :
    ∃ events, o' = .next (t.withLog enabled events) := by
  cases h with
  | next _ events => exact ⟨events, rfl⟩

theorem SameButLog.of_fault {r : Fault} (h : SameButLog enabled (.fault r) o') : o' = .fault r := by
  cases h; rfl

theorem SameButLog.of_refused {r : Refusal} (h : SameButLog enabled (.refused r) o') : o' = .refused r := by
  cases h; rfl

/-! ### Logging has no part in a check, an instruction or a step -/

variable (s : State) (events : List Event)

theorem SameButLog.raise (k : FaultKind) (op : Option (BitVec 5)) (arg : Nat) :
    SameButLog enabled (.next (s.raise k op arg)) (.next ((s.withLog enabled events).raise k op arg)) := by
  rw [State.withLog_raise]
  exact .next _ events

theorem SameButLog.complete (e : Event) :
    SameButLog enabled (.next (s.complete e)) (.next ((s.withLog enabled events).complete e)) := by
  rw [State.withLog_complete]
  exact .next _ _

variable {s}

theorem SameButLog.requireAddress (opcode : BitVec 5) (a : Nat) (h : SameButLog enabled o o') :
    SameButLog enabled (requireAddress opcode a s o) (requireAddress opcode a (s.withLog enabled events) o') := by
  by_cases ha : a ≤ s.cfg.maxAddress
  · rwa [requireAddress_legal ha, requireAddress_legal (by rwa [State.withLog_maxAddress])]
  · have ha : s.cfg.maxAddress < a := by omega
    rw [requireAddress_illegal ha, requireAddress_illegal (by rwa [State.withLog_maxAddress])]
    exact .raise s events ..

theorem SameButLog.requireLiteral (opcode : BitVec 5) (v : Nat) (h : SameButLog enabled o o') :
    SameButLog enabled (requireLiteral opcode v s o) (requireLiteral opcode v (s.withLog enabled events) o') := by
  by_cases hv : v ≤ s.cfg.maxValue
  · rwa [requireLiteral_legal hv, requireLiteral_legal (by rwa [State.withLog_maxValue])]
  · have hv : s.cfg.maxValue < v := by omega
    rw [requireLiteral_illegal hv, requireLiteral_illegal (by rwa [State.withLog_maxValue])]
    exact .raise s events ..

variable (s)

/-- Each instruction checks, stores and completes alike whatever is logged (R27). -/
theorem exec_sameButLog (i : Instr) : SameButLog enabled (exec i s) (exec i (s.withLog enabled events)) := by
  cases i with
  | loadCon address literal =>
    simp only [exec, execLoadCon, State.withLog_writeField, State.withLog_operationCounter]
    exact .requireAddress _ 0 address <| .requireLiteral _ 0 literal <| .complete _ events _
  | read address unused =>
    simp only [exec, execRead, State.withLog_field, State.withLog_operationCounter]
    exact .requireAddress _ 12 address <| .complete _ events _
  | write src dst =>
    simp only [exec, execWrite, State.withLog_writeField, State.withLog_field, State.withLog_operationCounter]
    exact .requireAddress _ 13 src <| .requireAddress _ 13 dst <| .complete _ events _
  | pow base exponent =>
    simp only [exec, execPow, State.withLog_writeField, State.withLog_field, State.withLog_maxValue,
      State.withLog_operationCounter]
    exact .requireAddress _ 27 base <| .requireAddress _ 27 exponent <| .complete _ events _

theorem dispatch_sameButLog (d : Decoded) :
    SameButLog enabled (dispatch d s) (dispatch d (s.withLog enabled events)) := by
  cases d with
  | instr i => exact exec_sameButLog s events i
  | unknownOpcode opcode => exact .raise s events ..
  | notSixBytes length => exact .refused _

/-- The checks of R111 read the stream, `pc` and no more. -/
theorem runningStep_sameButLog : SameButLog enabled (runningStep s) (runningStep (s.withLog enabled events)) := by
  unfold runningStep
  rw [State.withLog_ilen, State.withLog_pc, State.withLog_fetch, State.withLog_finish]
  split
  · exact .raise s events ..
  split
  · exact .next s.finish events
  · exact dispatch_sameButLog s events _

theorem step_sameButLog : SameButLog enabled (step s) (step (s.withLog enabled events)) := by
  unfold step sequencerStep
  rw [State.withLog_sizeBytes, State.withLog_status, State.withLog_fault]
  split
  · exact .refused _
  cases s.status with
  | running => exact runningStep_sameButLog s events
  | done => exact .refused _
  | fault => exact .fault _

/-- A run is steps, so logging has no part in it either: by induction on its length. -/
theorem run_sameButLog (n : Nat) :
    SameButLog enabled (Sys2Proof.core.run n s) (Sys2Proof.core.run n (s.withLog enabled events)) := by
  induction n generalizing s events with
  | zero => exact .next s events
  | succ n ih =>
    have hsame := step_sameButLog (enabled := enabled) s events
    cases hstep : step s with
    | next t =>
      rw [hstep] at hsame
      obtain ⟨events', hstep'⟩ := hsame.of_next
      rw [run_next hstep, run_next hstep']
      exact ih t events'
    | fault r =>
      rw [hstep] at hsame
      rw [run_fault hstep, run_fault hsame.of_fault]
      exact .fault r
    | refused r =>
      rw [hstep] at hsame
      rw [run_refused hstep, run_refused hsame.of_refused]
      exact .refused r

end

/-- Settles O44: `step_sameButLog` and `run_sameButLog`, read off outcome by outcome. -/
theorem loggingDoesNotInfluenceTheMachine : Obligations.LoggingDoesNotInfluenceTheMachine := by
  unfold Obligations.LoggingDoesNotInfluenceTheMachine
  constructor
  · intro s enabled events
    have hsame := step_sameButLog (enabled := enabled) s events
    cases hstep : step s with
    | next t => rw [hstep] at hsame; exact hsame.of_next
    | fault r => rw [hstep] at hsame; exact hsame.of_fault
    | refused r => rw [hstep] at hsame; exact hsame.of_refused
  · intro n s t enabled events hrun
    have hsame := run_sameButLog (enabled := enabled) s events n
    rw [hrun] at hsame
    exact hsame.of_next

/-! ### The final report -/

theorem State.finalReport_of_done {s : State} (h : s.status = .done) : s.finalReport = some s.mem := by
  simp [State.finalReport, h]

/-- Neither a running machine nor a faulted one has a report (R35). -/
theorem State.finalReport_of_ne_done {s : State} (h : s.status ≠ .done) : s.finalReport = none := by
  unfold State.finalReport
  split
  · rfl
  · contradiction
  · rfl

/-- Settles O41, by whether `status` is DONE. -/
theorem finalReportExactlyOnDone : Obligations.FinalReportExactlyOnDone := by
  unfold Obligations.FinalReportExactlyOnDone
  intro s n
  by_cases hdone : s.status = .done
  · simp [State.finalReport_of_done hdone, hdone]
  · simp [State.finalReport_of_ne_done hdone, hdone]

end Machine

end Sys2Proof

/-! SUPPORT. The statements from spec/20_memory.md: the field read (O14), the field access bit by bit (O15), overlap
(O16), repeated writes (O18), the most recent write (O19), and access inside memory (O20). -/

namespace Sys2Proof

/-- Masking with `MAX_VALUE` is the remainder by `2^W` (R7). -/
theorem Config.and_maxValue (c : Config) (v : Nat) : v &&& c.maxValue = v % 2 ^ c.valueBits :=
  Nat.and_two_pow_sub_one_eq_mod v c.valueBits

namespace Machine

/-! ### The datapath on memories -/

/-- Of two writes to one window the later stands: bit by bit, inside the window and outside it (R46, R50). -/
theorem memWrite_memWrite_same (mem a n u v : Nat) : memWrite (memWrite mem a n u) a n v = memWrite mem a n v := by
  apply Nat.eq_of_testBit_eq
  intro i
  by_cases hin : a ≤ i ∧ i < a + n
  · simp only [memWrite_testBit, if_pos hin]
  · simp only [memWrite_testBit, if_neg hin]

/-- A read whose window ends at or below bit `bits` depends on the low `bits` bits of memory only (R44). -/
theorem memRead_mod_two_pow {mem a n bits : Nat} (hwin : a + n ≤ bits) :
    memRead (mem % 2 ^ bits) a n = memRead mem a n := by
  apply Nat.eq_of_testBit_eq
  intro j
  rw [memRead_testBit, memRead_testBit, Nat.testBit_mod_two_pow]
  by_cases hj : j < n
  · have hbelow : a + j < bits := by omega
    simp [hbelow]
  · simp [hj]

/-- A window `d < n` bits above one just written reads the rest of the value in its low `n - d` bits, and above them
the `d` old bits that follow the written window (R46). -/
theorem memRead_memWrite_above {mem a d n v : Nat} (hv : v < 2 ^ n) (hd : d < n) :
    memRead (memWrite mem a n v) (a + d) n = v >>> d ||| memRead mem (a + n) d <<< (n - d) := by
  apply Nat.eq_of_testBit_eq
  intro j
  rw [memRead_testBit, memWrite_testBit, Nat.testBit_or, Nat.testBit_shiftRight, Nat.testBit_shiftLeft, memRead_testBit]
  by_cases hwritten : d + j < n
  · have hin : a ≤ a + d + j ∧ a + d + j < a + n := by omega
    have hpos : a + d + j - a = d + j := by omega
    have hread : j < n := by omega
    have hnotOld : ¬ n - d ≤ j := by omega
    simp [hin, hpos, hread, hnotOld]
  · have hout : ¬ (a ≤ a + d + j ∧ a + d + j < a + n) := by omega
    have hpast : v.testBit (d + j) = false :=
      Nat.testBit_eq_false_of_lt (hv.trans_le (Nat.pow_le_pow_right (by norm_num) (by omega)))
    have hold : n - d ≤ j := by omega
    have hread : j < n ↔ j - (n - d) < d := by omega
    have hpos : a + d + j = a + n + (j - (n - d)) := by omega
    rw [if_neg hout, hpast, hpos]
    simp [hold, hread]

/-! ### Fields of the state -/

section
variable {s : State} {a v i : Nat}

/-- A field bit by bit: value bit `j` is memory bit `a + j` (R40). -/
theorem State.field_testBit (s : State) (a j : Nat) :
    (s.field a).testBit j = (decide (j < s.cfg.valueBits) && s.mem.testBit (a + j)) :=
  memRead_testBit s.mem a s.cfg.valueBits j

theorem State.field_le_maxValue (s : State) (a : Nat) : s.field a ≤ s.cfg.maxValue :=
  (s.cfg.le_maxValue_iff _).2 (memRead_lt s.mem a s.cfg.valueBits)

/-- A field written and read again is the value's low `W` bits (R45). -/
theorem State.field_writeField_same (s : State) (a v : Nat) : (s.writeField a v).field a = v &&& s.cfg.maxValue := by
  rw [Config.and_maxValue]
  exact memRead_memWrite_same s.mem a s.cfg.valueBits v

theorem State.writeField_testBit_inside (hlo : a ≤ i) (hhi : i < a + s.cfg.valueBits) :
    (s.writeField a v).mem.testBit i = v.testBit (i - a) := by
  rw [State.writeField_mem, memWrite_testBit, if_pos ⟨hlo, hhi⟩]

/-- The frame of a field write (R42). -/
theorem State.writeField_testBit_outside (hout : i < a ∨ a + s.cfg.valueBits ≤ i) :
    (s.writeField a v).mem.testBit i = s.mem.testBit i := by
  rw [State.writeField_mem, memWrite_testBit, if_neg (by omega)]

/-- A write changes memory only, so of two writes to one field the later stands in the whole state. -/
theorem State.writeField_writeField_same (s : State) (a u v : Nat) :
    (s.writeField a u).writeField a v = s.writeField a v :=
  congrArg (fun m => { s with mem := m }) (memWrite_memWrite_same s.mem a s.cfg.valueBits u v)

/-- The top bit of a legal field is a bit of memory (R44). -/
theorem State.window_le_memBits (ha : a ≤ s.cfg.maxAddress) : a + s.cfg.valueBits ≤ s.cfg.memBits := by
  have htop := s.cfg.maxAddress_add_valueBits
  omega

end

/-! ### A sequence of field writes -/

/-- The writes `(address, value)` of a list, made in its order (R53). -/
def State.writeFields (s : State) (writes : List (Nat × Nat)) : State :=
  writes.foldl (fun t p => t.writeField p.1 p.2) s

section
variable (s : State)

@[simp] theorem State.writeFields_nil : s.writeFields [] = s := rfl

@[simp] theorem State.writeFields_cons (p : Nat × Nat) (writes : List (Nat × Nat)) :
    s.writeFields (p :: writes) = (s.writeField p.1 p.2).writeFields writes := rfl

theorem State.writeFields_append (earlier later : List (Nat × Nat)) :
    s.writeFields (earlier ++ later) = (s.writeFields earlier).writeFields later :=
  List.foldl_append

@[simp] theorem State.writeFields_cfg (writes : List (Nat × Nat)) : (s.writeFields writes).cfg = s.cfg := by
  induction writes generalizing s with
  | nil => rfl
  | cons p rest ih => rw [State.writeFields_cons, ih, State.writeField_cfg]

/-- A bit that no write of the sequence covers keeps its value: by induction on the sequence. -/
theorem State.writeFields_testBit_uncovered {writes : List (Nat × Nat)} {i : Nat}
    (hout : ∀ p ∈ writes, i < p.1 ∨ p.1 + s.cfg.valueBits ≤ i) :
    (s.writeFields writes).mem.testBit i = s.mem.testBit i := by
  induction writes generalizing s with
  | nil => rfl
  | cons p rest ih =>
    obtain ⟨hfirst, hrest⟩ := List.forall_mem_cons.1 hout
    rw [State.writeFields_cons, ih (s.writeField p.1 p.2) hrest, State.writeField_testBit_outside hfirst]

end

/-! ### The obligations -/

/-- Settles O15: the read bit by bit, the two halves of a write bit by bit, and the read of the field written. -/
theorem fieldAccessBitByBit : Obligations.FieldAccessBitByBit := by
  unfold Obligations.FieldAccessBitByBit
  intro s a v
  exact ⟨State.field_testBit s a, fun _ => State.writeField_testBit_inside,
    fun _ => State.writeField_testBit_outside, State.field_writeField_same s a v⟩

/-- Settles O16: `memRead_memWrite_above` with `b = a + d`. -/
theorem overlappingFieldAfterWrite : Obligations.OverlappingFieldAfterWrite := by
  unfold Obligations.OverlappingFieldAfterWrite
  intro s a b v hv hab hb
  obtain ⟨d, rfl⟩ := Nat.exists_eq_add_of_le hab.le
  rw [Nat.add_sub_cancel_left]
  exact memRead_memWrite_above ((s.cfg.le_maxValue_iff v).1 hv) (by omega)

/-- Settles O18: writing `v` twice is the case `u = v` of the later write standing. -/
theorem repeatedFieldWriteIsIdempotent : Obligations.RepeatedFieldWriteIsIdempotent := by
  unfold Obligations.RepeatedFieldWriteIsIdempotent
  intro s a u v
  exact ⟨s.writeField_writeField_same a v v, s.writeField_writeField_same a u v⟩

/-- Settles O19: the later writes leave the bit alone, so it is the covering write's, whatever came earlier. -/
theorem bitHoldsTheMostRecentWrite : Obligations.BitHoldsTheMostRecentWrite := by
  unfold Obligations.BitHoldsTheMostRecentWrite
  intro s earlier later a v i hlater
  refine ⟨fun hlo hhi => ?covered, s.writeFields_testBit_uncovered hlater⟩
  case covered =>
    have hcfg : (s.writeFields earlier).cfg = s.cfg := s.writeFields_cfg earlier
    calc (s.writeFields (earlier ++ (a, v) :: later)).mem.testBit i
      _ = (((s.writeFields earlier).writeField a v).writeFields later).mem.testBit i := by
        rw [State.writeFields_append, State.writeFields_cons]
      _ = ((s.writeFields earlier).writeField a v).mem.testBit i :=
        State.writeFields_testBit_uncovered _ (by rwa [State.writeField_cfg, hcfg])
      _ = v.testBit (i - a) := State.writeField_testBit_inside hlo (by rwa [hcfg])

/-- Settles O20: a legal window ends inside memory, so the read sees `mem` modulo `2^MEM_BITS` only. -/
theorem legalAccessStaysInsideMemory : Obligations.LegalAccessStaysInsideMemory := by
  unfold Obligations.LegalAccessStaysInsideMemory
  intro s a v ha
  refine ⟨fun hmem => State.writeField_keeps_wf hmem ha, fun high => ?read⟩
  case read =>
    have hwin := State.window_le_memBits ha
    calc memRead (s.mem % 2 ^ s.cfg.memBits + high * 2 ^ s.cfg.memBits) a s.cfg.valueBits
      _ = memRead ((s.mem % 2 ^ s.cfg.memBits + high * 2 ^ s.cfg.memBits) % 2 ^ s.cfg.memBits) a s.cfg.valueBits :=
        (memRead_mod_two_pow hwin).symm
      _ = memRead (s.mem % 2 ^ s.cfg.memBits) a s.cfg.valueBits := by rw [Nat.add_mul_mod_self_right, Nat.mod_mod]
      _ = memRead s.mem a s.cfg.valueBits := memRead_mod_two_pow hwin

/-- Settles O14: the formula is the definition of `field`, and a window of `W` bits reads below `2^W`. -/
theorem fieldReadIsShiftAndMask : Obligations.FieldReadIsShiftAndMask := by
  unfold Obligations.FieldReadIsShiftAndMask
  intro s a
  exact ⟨rfl, s.field_le_maxValue a⟩

end Machine

end Sys2Proof

/-! SUPPORT. The statements from spec/30_encoding.md: the decoder (O5, O6, O7, O8), the encoder (O9, O10), the stream of
a program (O11), the assembler (O12, O13), and the dispatch of a record (O29, O34). -/

namespace Sys2Proof

/-! ### Words and fields as numbers -/

section
variable (w w' : RecordWord) (f : Fields)

/-- R63 as R66 writes it: the six bytes shifted into place. -/
theorem wordOfBytes_toNat (b0 b1 b2 b3 b4 b5 : Byte) :
    (wordOfBytes b0 b1 b2 b3 b4 b5).toNat =
      b0.toNat <<< 40 ||| b1.toNat <<< 32 ||| b2.toNat <<< 24 ||| b3.toNat <<< 16 ||| b4.toNat <<< 8 ||| b5.toNat := by
  simp only [wordOfBytes, BitVec.toNat_append, Nat.shiftLeft_or_distrib, ← Nat.shiftLeft_add]

theorem fieldsOfWord_opcode_toNat : (fieldsOfWord w).opcode.toNat = w.toNat / 2 ^ 36 % 2 ^ 5 := by
  rw [fieldsOfWord, BitVec.extractLsb'_toNat, Nat.shiftRight_eq_div_pow]

theorem fieldsOfWord_operandHi_toNat : (fieldsOfWord w).operandHi.toNat = w.toNat / 2 ^ 12 % 2 ^ 24 := by
  rw [fieldsOfWord, BitVec.extractLsb'_toNat, Nat.shiftRight_eq_div_pow]

theorem fieldsOfWord_operandLo_toNat : (fieldsOfWord w).operandLo.toNat = w.toNat % 2 ^ 12 := by
  rw [fieldsOfWord, BitVec.extractLsb'_toNat, Nat.shiftRight_zero]

theorem ofNat_eq_fieldsOfWord_opcode : BitVec.ofNat 5 (w.toNat / 2 ^ 36) = (fieldsOfWord w).opcode :=
  BitVec.eq_of_toNat_eq (by rw [BitVec.toNat_ofNat, fieldsOfWord_opcode_toNat])

/-- The packing formula of R62 over the naturals: no field is shifted out of the 48 bits. -/
theorem wordOfFields_toNat :
    (wordOfFields f).toNat = f.opcode.toNat <<< 36 ||| f.operandHi.toNat <<< 12 ||| f.operandLo.toNat := by
  have hop := f.opcode.isLt
  have hhi := f.operandHi.isLt
  have hlo := f.operandLo.isLt
  have hop' : f.opcode.toNat * 2 ^ 36 % 2 ^ 48 = f.opcode.toNat * 2 ^ 36 := Nat.mod_eq_of_lt (by omega)
  have hhi' : f.operandHi.toNat * 2 ^ 12 % 2 ^ 48 = f.operandHi.toNat * 2 ^ 12 := Nat.mod_eq_of_lt (by omega)
  simp only [wordOfFields, BitVec.toNat_or, BitVec.toNat_shiftLeft, Nat.shiftLeft_eq,
    BitVec.toNat_setWidth_of_le (show 5 ≤ 48 by decide), BitVec.toNat_setWidth_of_le (show 24 ≤ 48 by decide),
    BitVec.toNat_setWidth_of_le (show 12 ≤ 48 by decide), hop', hhi']

/-- The padding of a packed record is 0 (R62). -/
theorem wordOfFields_toNat_lt : (wordOfFields f).toNat < 2 ^ 41 := by
  have hop := f.opcode.isLt
  have hhi := f.operandHi.isLt
  have hlo := f.operandLo.isLt
  rw [wordOfFields_toNat, Nat.shiftLeft_eq, Nat.shiftLeft_eq]
  exact Nat.or_lt_two_pow (Nat.or_lt_two_pow (by omega) (by omega)) (by omega)

theorem wordOfFields_getLsbD_of_ge {k : Nat} (hk : 41 ≤ k) : (wordOfFields f).getLsbD k = false :=
  Nat.testBit_eq_false_of_lt ((wordOfFields_toNat_lt f).trans_le (Nat.pow_le_pow_right (by norm_num) hk))

/-- The three fields are the bits 0 to 40, and no more (R61, R68). -/
theorem fieldsOfWord_eq_iff : fieldsOfWord w = fieldsOfWord w' ↔ ∀ k < 41, w.getLsbD k = w'.getLsbD k := by
  simp only [fieldsOfWord, Fields.mk.injEq]
  constructor
  · rintro ⟨hop, hhi, hlo⟩ k hk
    by_cases hkLo : k < 12
    · simpa [hkLo] using congrArg (·.getLsbD k) hlo
    by_cases hkHi : k < 36
    · have hin : k - 12 < 24 := by omega
      have hpos : 12 + (k - 12) = k := by omega
      simpa [hin, hpos] using congrArg (·.getLsbD (k - 12)) hhi
    · have hin : k - 36 < 5 := by omega
      have hpos : 36 + (k - 36) = k := by omega
      simpa [hin, hpos] using congrArg (·.getLsbD (k - 36)) hop
  · intro hbits
    refine ⟨?_, ?_, ?_⟩ <;>
    · apply BitVec.eq_of_getLsbD_eq
      intro i hi
      rw [BitVec.getLsbD_extractLsb', BitVec.getLsbD_extractLsb', hbits _ (by omega)]

/-- Packing the fields of a word gives the word back exactly when its padding is 0. -/
theorem wordOfFields_fieldsOfWord_eq_iff :
    wordOfFields (fieldsOfWord w) = w ↔ ∀ k, 41 ≤ k → w.getLsbD k = false := by
  constructor
  · intro heq k hk
    rw [← heq]
    exact wordOfFields_getLsbD_of_ge _ hk
  · intro hpadding
    have hfields := (fieldsOfWord_eq_iff _ _).1 (fieldsOfWord_wordOfFields (fieldsOfWord w))
    apply BitVec.eq_of_getLsbD_eq
    intro k _
    by_cases hk : k < 41
    · exact hfields k hk
    · rw [wordOfFields_getLsbD_of_ge _ (by omega), hpadding k (by omega)]

theorem bytesOfWord_injective : Function.Injective bytesOfWord := by
  intro v v' h
  simp only [bytesOfWord, List.cons.injEq] at h
  obtain ⟨h0, h1, h2, h3, h4, h5, -⟩ := h
  rw [← wordOfBytes_bytesOfWord v, h0, h1, h2, h3, h4, h5, wordOfBytes_bytesOfWord]

/-- Byte `k` of a record is byte `5 - k` of its number: big-endian (R63). -/
theorem bytesOfWord_getElem?_toNat {k : Nat} (hk : k < 6) :
    ((bytesOfWord w)[k]?).map BitVec.toNat = some (w.toNat / 2 ^ (40 - 8 * k) % 256) := by
  interval_cases k <;> simp [bytesOfWord, Nat.shiftRight_eq_div_pow]

end

/-! ### The multiplexer -/

section
variable {w : RecordWord} {f : Fields} {i : Instr}

/-- Selection answers an instruction exactly from its opcode and its operands (R69, R70). -/
theorem select_eq_instr_iff :
    select f = .instr i ↔ f.opcode = i.opcode ∧ f.operandHi.toNat = i.hi ∧ f.operandLo.toNat = i.lo := by
  constructor
  · exact select_eq_instr
  · obtain ⟨op, hi, lo⟩ := f
    rintro ⟨rfl, hhi, hlo⟩
    exact select_opcode i hi lo hhi hlo

/-- Selection answers the unknown opcode exactly for the opcodes outside the table (R72). -/
theorem select_eq_unknownOpcode_iff {op : BitVec 5} :
    select f = .unknownOpcode op ↔ f.opcode ∉ [0#5, 12#5, 13#5, 27#5] ∧ f.opcode = op := by
  unfold select
  by_cases h0 : f.opcode = 0#5
  · simp [h0]
  by_cases h12 : f.opcode = 12#5
  · simp [h12]
  by_cases h13 : f.opcode = 13#5
  · simp [h13]
  by_cases h27 : f.opcode = 27#5
  · simp [h27]
  · simp [h0, h12, h13, h27]

theorem decodeWord_eq_instr_iff :
    decodeWord w = .instr i ↔
      (fieldsOfWord w).opcode = i.opcode ∧ w.toNat / 2 ^ 12 % 2 ^ 24 = i.hi ∧ w.toNat % 2 ^ 12 = i.lo := by
  rw [← fieldsOfWord_operandHi_toNat, ← fieldsOfWord_operandLo_toNat]
  exact select_eq_instr_iff

/-- The match value of an opcode: the record that holds it in `w[40:36]` and is 0 elsewhere (R69). -/
def matchValue (op : BitVec 5) : RecordWord :=
  op.setWidth 48 <<< 36

/-- The mask of the opcode table keeps the opcode field in its place and nothing else (R69). -/
theorem and_opcodeMask (w : RecordWord) :
    w &&& 0x01F000000000#48 = matchValue (fieldsOfWord w).opcode := by
  apply BitVec.eq_of_getLsbD_eq
  intro k hk
  simp only [matchValue, fieldsOfWord, BitVec.getLsbD_and, BitVec.getLsbD_shiftLeft, BitVec.getLsbD_setWidth,
    BitVec.getLsbD_extractLsb']
  interval_cases k <;> simp

theorem matchValue_injective : Function.Injective matchValue := by
  intro a b h
  have ha := a.isLt
  have hb := b.isLt
  have hnat := congrArg BitVec.toNat h
  simp only [matchValue, BitVec.toNat_shiftLeft, BitVec.toNat_setWidth, Nat.shiftLeft_eq] at hnat
  exact BitVec.eq_of_toNat_eq (by omega)

/-! The match values of the opcode table (R69). -/

theorem loadCon_matchValue : 0x000000000000#48 = matchValue 0 := by decide
theorem read_matchValue : 0x00C000000000#48 = matchValue 12 := by decide
theorem write_matchValue : 0x00D000000000#48 = matchValue 13 := by decide
theorem pow_matchValue : 0x01B000000000#48 = matchValue 27 := by decide

/-- Matching under the mask is comparing the opcode field with the opcode that the match value holds (R69). -/
theorem and_opcodeMask_eq_iff {op : BitVec 5} :
    w &&& 0x01F000000000#48 = matchValue op ↔ (fieldsOfWord w).opcode = op := by
  rw [and_opcodeMask]
  exact matchValue_injective.eq_iff

/-- A record with the `READ` opcode decodes to `READ` of its operands (R69, R70). -/
theorem decode_read (h : w.extractLsb' 36 5 = 12#5) :
    decode (bytesOfWord w) = .instr (.read (w.extractLsb' 12 24).toNat (w.extractLsb' 0 12).toNat) := by
  rw [decode_bytesOfWord, decodeWord, select_eq_instr_iff]
  exact ⟨h, rfl, rfl⟩

/-- Words that agree on bits 12 to 40 agree on every field inside them. -/
theorem extractLsb'_eq_of_bits_12_to_40 {w' : RecordWord} {start len : Nat}
    (h : w.extractLsb' 12 29 = w'.extractLsb' 12 29) (hlo : 12 ≤ start) (hhi : start + len ≤ 41) :
    w.extractLsb' start len = w'.extractLsb' start len := by
  apply BitVec.eq_of_getLsbD_eq
  intro k hk
  have hin : start - 12 + k < 29 := by omega
  have hpos : 12 + (start - 12 + k) = start + k := by omega
  simpa [hk, hin, hpos] using congrArg (·.getLsbD (start - 12 + k)) h

end

/-! ### Decoding and encoding -/

section
variable {i : Instr}

/-- A decoded instruction is well-formed: its arguments are the values of the fields. -/
theorem Instr.wf_of_select {f : Fields} (h : select f = .instr i) : i.wf = true := by
  obtain ⟨-, hhi, hlo⟩ := select_eq_instr h
  exact i.wf_iff.2 ⟨hhi ▸ f.operandHi.isLt, hlo ▸ f.operandLo.isLt⟩

/-- The fields of a decoded instruction are those it was decoded from. -/
theorem Instr.fields_of_select {f : Fields} (h : select f = .instr i) : i.fields = f := by
  obtain ⟨hop, hhi, hlo⟩ := select_eq_instr h
  obtain ⟨op, hi, lo⟩ := f
  simp_all [Instr.fields, ← hhi, ← hlo]

theorem Instr.fields_operandHi_toNat (h : i.wf = true) : i.fields.operandHi.toNat = i.hi :=
  (BitVec.toNat_ofNat ..).trans (Nat.mod_eq_of_lt (i.wf_iff.1 h).left)

theorem Instr.fields_operandLo_toNat (h : i.wf = true) : i.fields.operandLo.toNat = i.lo :=
  (BitVec.toNat_ofNat ..).trans (Nat.mod_eq_of_lt (i.wf_iff.1 h).right)

/-- The round trip of R75. -/
theorem decode_encode (h : i.wf = true) : decode (encode i) = .instr i := by
  rw [encode, decode_bytesOfWord, decodeWord, encodeWord, fieldsOfWord_wordOfFields, select_eq_instr_iff]
  exact ⟨rfl, Instr.fields_operandHi_toNat h, Instr.fields_operandLo_toNat h⟩

/-- The packing formula of R79, on the arguments themselves. -/
theorem encodeWord_toNat (h : i.wf = true) :
    (encodeWord i).toNat = i.opcode.toNat <<< 36 ||| i.hi <<< 12 ||| i.lo := by
  rw [encodeWord, wordOfFields_toNat, Instr.fields_operandHi_toNat h, Instr.fields_operandLo_toNat h]
  rfl

end

/-- Settles O9: one way is `decode_encode`; the other packs again the fields that were decoded. -/
theorem decodeAndEncodeAgree : Obligations.DecodeAndEncodeAgree := by
  unfold Obligations.DecodeAndEncodeAgree
  refine ⟨fun i => decode_encode, fun w i hdecode => ?_⟩
  rw [decode_bytesOfWord] at hdecode
  refine ⟨Instr.wf_of_select hdecode, ?_⟩
  have hword : encodeWord i = wordOfFields (fieldsOfWord w) := by
    rw [encodeWord, Instr.fields_of_select hdecode]
  rw [encode, bytesOfWord_injective.eq_iff, hword]
  exact wordOfFields_fieldsOfWord_eq_iff w

/-- Settles O6: the fields of the word, whose number is the big-endian integer; a mask of ones is a remainder. -/
theorem fieldsAreCutByShiftAndMask : Obligations.FieldsAreCutByShiftAndMask := by
  unfold Obligations.FieldsAreCutByShiftAndMask
  intro b0 b1 b2 b3 b4 b5 w
  have hw : (wordOfBytes b0 b1 b2 b3 b4 b5).toNat = w := wordOfBytes_toNat ..
  refine ⟨fieldsOfWord (wordOfBytes b0 b1 b2 b3 b4 b5), rfl, ?opcode, ?operandHi, ?operandLo⟩
  case opcode =>
    rw [fieldsOfWord_opcode_toNat, hw, Nat.shiftRight_eq_div_pow]
    exact (Nat.and_two_pow_sub_one_eq_mod _ 5).symm
  case operandHi =>
    rw [fieldsOfWord_operandHi_toNat, hw, Nat.shiftRight_eq_div_pow]
    exact (Nat.and_two_pow_sub_one_eq_mod _ 24).symm
  case operandLo =>
    rw [fieldsOfWord_operandLo_toNat, hw]
    exact (Nat.and_two_pow_sub_one_eq_mod _ 12).symm

/-- A record is the instruction that this match value and its own operands make exactly when its opcode bits match. -/
theorem and_opcodeMask_eq_iff_decodeWord {w value : RecordWord} {i : Instr}
    (hvalue : value = matchValue i.opcode) (hhi : i.hi = w.toNat / 2 ^ 12 % 2 ^ 24)
    (hlo : i.lo = w.toNat % 2 ^ 12) :
    w &&& 0x01F000000000#48 = value ↔ decodeWord w = .instr i := by
  rw [hvalue, and_opcodeMask_eq_iff, decodeWord_eq_instr_iff, hhi, hlo]
  simp only [and_true]

/-- Settles O7: each match value is its instruction's opcode in place, and the masked word is the opcode field. -/
theorem opcodeMultiplexerFollowsTheTable : Obligations.OpcodeMultiplexerFollowsTheTable := by
  unfold Obligations.OpcodeMultiplexerFollowsTheTable
  intro w
  refine ⟨and_opcodeMask_eq_iff_decodeWord loadCon_matchValue rfl rfl,
    and_opcodeMask_eq_iff_decodeWord read_matchValue rfl rfl,
    and_opcodeMask_eq_iff_decodeWord write_matchValue rfl rfl,
    and_opcodeMask_eq_iff_decodeWord pow_matchValue rfl rfl, ?unknown⟩
  case unknown =>
    have htable : [0x000000000000#48, 0x00C000000000#48, 0x00D000000000#48, 0x01B000000000#48] =
        [0#5, 12#5, 13#5, 27#5].map matchValue := by decide
    rw [htable, and_opcodeMask, List.mem_map_of_injective matchValue_injective, decodeWord,
      select_eq_unknownOpcode_iff, ofNat_eq_fieldsOfWord_opcode, and_iff_left rfl]

/-- Settles O8: the fields are bits 0 to 40, and a packed word has no bit above them. -/
theorem paddingIsIgnoredOnDecodeAndZeroOnEncode : Obligations.PaddingIsIgnoredOnDecodeAndZeroOnEncode := by
  unfold Obligations.PaddingIsIgnoredOnDecodeAndZeroOnEncode
  exact ⟨fun w w' hbits => congrArg select ((fieldsOfWord_eq_iff w w').2 hbits),
    fun w w' => (fieldsOfWord_eq_iff w w').1, fun i => wordOfFields_toNat_lt i.fields⟩

/-- Settles O10: the packing formula, then the record's bytes as digits of its number. -/
theorem encodePacksAndSerialisesBigEndian : Obligations.EncodePacksAndSerialisesBigEndian := by
  unfold Obligations.EncodePacksAndSerialisesBigEndian
  intro i hwf w
  refine ⟨encode_length i, fun k hk => ?_⟩
  rw [encode, bytesOfWord_getElem?_toNat _ hk, encodeWord_toNat hwf]

/-- Settles O5: closed facts about seven records. -/
theorem decodeReadsRecordsWrittenFromTheEncoding : Obligations.DecodeReadsRecordsWrittenFromTheEncoding := by
  unfold Obligations.DecodeReadsRecordsWrittenFromTheEncoding
  decide

/-! ### The stream of a program -/

theorem encodeProgram_length (program : List Instr) : (encodeProgram program).length = 6 * program.length := by
  induction program with
  | nil => rfl
  | cons i rest ih =>
    rw [encodeProgram, List.length_append, encode_length, ih, List.length_cons]
    omega

/-- An encoded record at the head of a stream is the first chunk (R65). -/
theorem split_encode_append (i : Instr) (stream : List Byte) : split (encode i ++ stream) = encode i :: split stream :=
  rfl

theorem split_encodeProgram (program : List Instr) : split (encodeProgram program) = program.map encode := by
  induction program with
  | nil => rfl
  | cons i rest ih => rw [encodeProgram, split_encode_append, ih, List.map_cons]

/-- Record `k` of a program stands at the bytes `6k .. 6k+5` of its stream (R64). -/
theorem encodeProgram_window {program : List Instr} {k : Nat} {i : Instr} (h : program[k]? = some i) :
    ((encodeProgram program).drop (6 * k)).take 6 = encode i := by
  induction program generalizing k with
  | nil => cases h
  | cons j rest ih =>
    rw [encodeProgram]
    cases k with
    | zero =>
      cases h
      exact List.take_left' (encode_length i)
    | succ k =>
      have hdrop : 6 * (k + 1) = (encode j).length + 6 * k := by rw [encode_length]; omega
      rw [hdrop, List.drop_length_add_append]
      exact ih h

/-- Settles O11: three inductions over the program, and the round trip for the record fetched. -/
theorem programRecordsAreFetchedInOrder : Obligations.ProgramRecordsAreFetchedInOrder := by
  unfold Obligations.ProgramRecordsAreFetchedInOrder
  intro program hwf
  refine ⟨encodeProgram_length program, split_encodeProgram program, fun s i hstream hget => ?_⟩
  have hfetch : s.fetch = encode i := by
    rw [Machine.State.fetch, hstream]
    exact encodeProgram_window hget
  refine ⟨hfetch, ?_⟩
  rw [hfetch]
  exact decode_encode (hwf i (List.mem_of_getElem? hget))

/-! ### The assembler -/

theorem Instr.opcode_range (i : Instr) : 0 ≤ (i.opcode.toNat : Int) ∧ (i.opcode.toNat : Int) < 2 ^ 5 := by
  have := i.opcode.isLt
  omega

namespace Machine

section
variable {opcode hi lo : Int}

theorem fitsField_iff {width : Nat} {v : Int} : fitsField width v = true ↔ 0 ≤ v ∧ v < 2 ^ width := by
  simp [fitsField]

/-- The opcode is the first field checked (R80). -/
theorem packFields_of_opcode_overflow (hop : ¬ (0 ≤ opcode ∧ opcode < 2 ^ 5)) :
    packFields opcode hi lo = .error (.fieldOverflow .opcode opcode 31) := by
  rw [← fitsField_iff] at hop
  simp [packFields, hop]

theorem packFields_of_operandHi_overflow (hop : 0 ≤ opcode ∧ opcode < 2 ^ 5) (hhi : ¬ (0 ≤ hi ∧ hi < 2 ^ 24)) :
    packFields opcode hi lo = .error (.fieldOverflow .operandHi hi 16777215) := by
  rw [← fitsField_iff] at hop hhi
  simp [packFields, hop, hhi]

theorem packFields_of_operandLo_overflow (hop : 0 ≤ opcode ∧ opcode < 2 ^ 5) (hhi : 0 ≤ hi ∧ hi < 2 ^ 24)
    (hlo : ¬ (0 ≤ lo ∧ lo < 2 ^ 12)) : packFields opcode hi lo = .error (.fieldOverflow .operandLo lo 4095) := by
  rw [← fitsField_iff] at hop hhi hlo
  simp [packFields, hop, hhi, hlo]

end

/-- Packing the fields of a well-formed instruction is encoding it (R79). -/
theorem packFields_of_wf {i : Instr} (h : i.wf = true) :
    packFields i.opcode.toNat i.hi i.lo = .bytes (encode i) := by
  obtain ⟨hhi, hlo⟩ := i.wf_iff.1 h
  have hop : fitsField 5 i.opcode.toNat = true := fitsField_iff.2 (Instr.opcode_range i)
  have hhi : fitsField 24 i.hi = true := fitsField_iff.2 (by omega)
  have hlo : fitsField 12 i.lo = true := fitsField_iff.2 (by omega)
  simp [packFields, hop, hhi, hlo, encode, encodeWord, Instr.fields, BitVec.ofInt_natCast]

theorem opcodeOfMnemonic_mnemonic (i : Instr) : opcodeOfMnemonic i.mnemonic = some i.opcode.toNat := by
  cases i <;> rfl

theorem opcodeOfMnemonic_of_not_mem {m : String} (h : m ∉ ["LOAD_CON", "READ", "WRITE", "POW"]) :
    opcodeOfMnemonic m = none := by
  simp only [List.mem_cons, List.not_mem_nil, or_false, not_or] at h
  obtain ⟨hloadCon, hread, hwrite, hpow⟩ := h
  simp [opcodeOfMnemonic, hloadCon, hread, hwrite, hpow]

/-- The four mnemonics are those of the instructions, each with any operands (R70, R77). -/
theorem exists_instr_of_mnemonic {m : String} (h : m ∈ ["LOAD_CON", "READ", "WRITE", "POW"]) (hi lo : Nat) :
    ∃ i : Instr, i.mnemonic = m ∧ i.hi = hi ∧ i.lo = lo := by
  simp only [List.mem_cons, List.not_mem_nil, or_false] at h
  obtain rfl | rfl | rfl | rfl := h
  · exact ⟨.loadCon hi lo, rfl, rfl, rfl⟩
  · exact ⟨.read hi lo, rfl, rfl, rfl⟩
  · exact ⟨.write hi lo, rfl, rfl, rfl⟩
  · exact ⟨.pow hi lo, rfl, rfl, rfl⟩

theorem assemble_of_unmapped {t : SymbolicInstr} (h : opcodeOfMnemonic t.mnemonic = none) :
    assemble t = .error .unknownInstruction := by
  simp [assemble, h]

/-- A tuple with an instruction's mnemonic is packed with that instruction's opcode (R77). -/
theorem assemble_of_mnemonic {t : SymbolicInstr} {i : Instr} (h : i.mnemonic = t.mnemonic) :
    assemble t = packFields i.opcode.toNat t.hi t.lo := by
  simp [assemble, ← h, opcodeOfMnemonic_mnemonic]

/-- Settles O12: the checks one by one; a tuple that passes them spells an instruction, whose fields are packed. -/
theorem assemblerReportsTheFirstError : Obligations.AssemblerReportsTheFirstError := by
  unfold Obligations.AssemblerReportsTheFirstError
  refine ⟨fun t hunmapped => assemble_of_unmapped (opcodeOfMnemonic_of_not_mem hunmapped), fun t hmapped => ?mapped,
    fun opcode hi lo hop => packFields_of_opcode_overflow hop⟩
  case mapped =>
    obtain ⟨i, hname, hhi, hlo⟩ := exists_instr_of_mnemonic hmapped t.hi.toNat t.lo.toNat
    rw [assemble_of_mnemonic hname]
    refine ⟨packFields_of_operandHi_overflow (Instr.opcode_range i),
      packFields_of_operandLo_overflow (Instr.opcode_range i), fun hhiFits hloFits => ?_⟩
    have hhi : (i.hi : Int) = t.hi := by omega
    have hlo : (i.lo : Int) = t.lo := by omega
    have hwf : i.wf = true := i.wf_iff.2 (by omega)
    refine ⟨i, hwf, ?spells, ?_⟩
    case spells => rw [symbolicOf, hname, hhi, hlo]
    rw [← hhi, ← hlo, packFields_of_wf hwf]

/-- A program with a first tuple assembles exactly when that tuple and the rest do (R81). -/
theorem assembleProgram_cons_eq_bytes_iff {t : SymbolicInstr} {rest : List SymbolicInstr} {stream : List Byte} :
    assembleProgram (t :: rest) = .bytes stream ↔
      ∃ record tail, assemble t = .bytes record ∧ assembleProgram rest = .bytes tail ∧ stream = record ++ tail := by
  rw [assembleProgram]
  cases assemble t with
  | error e => simp
  | bytes record =>
    cases assembleProgram rest with
    | error e => simp
    | bytes tail => simp [eq_comm]

theorem assembleProgram_eq_bytes_iff {program : List SymbolicInstr} {stream : List Byte} :
    assembleProgram program = .bytes stream ↔
      ∃ records : List (List Byte), program.map assemble = records.map AsmResult.bytes ∧ stream = records.flatten := by
  induction program generalizing stream with
  | nil =>
    constructor
    · intro hbytes
      cases hbytes
      exact ⟨[], rfl, rfl⟩
    · rintro ⟨records, hrecords, rfl⟩
      rw [List.map_eq_nil_iff.1 hrecords.symm]
      rfl
  | cons t rest ih =>
    simp only [assembleProgram_cons_eq_bytes_iff, ih, List.map_cons]
    constructor
    · rintro ⟨record, _, hrecord, ⟨records, hrecords, rfl⟩, rfl⟩
      exact ⟨record :: records, by rw [hrecord, hrecords, List.map_cons], rfl⟩
    · rintro ⟨records, hrecords, rfl⟩
      cases records with
      | nil => cases hrecords
      | cons record records =>
        obtain ⟨hrecord, hrecords⟩ := List.cons.inj hrecords
        exact ⟨record, records.flatten, hrecord, ⟨records, hrecords, rfl⟩, rfl⟩

/-- Settles O13: `assembleProgram_eq_bytes_iff`; a failing tuple is none of the records it asks for. -/
theorem assembledProgramIsTheConcatenation : Obligations.AssembledProgramIsTheConcatenation := by
  unfold Obligations.AssembledProgramIsTheConcatenation
  refine ⟨fun _ _ => assembleProgram_eq_bytes_iff, rfl, fun program t e hmem hfails => ?_⟩
  cases hprogram : assembleProgram program with
  | error e' => exact ⟨e', rfl⟩
  | bytes stream =>
    obtain ⟨records, hrecords, -⟩ := assembleProgram_eq_bytes_iff.1 hprogram
    have hrecord : assemble t ∈ records.map AsmResult.bytes := hrecords ▸ List.mem_map_of_mem hmem
    simp [hfails] at hrecord

/-! ### Dispatch of a record -/

/-- `READ` has no use for its second argument (R73). -/
theorem dispatch_read (address unused : Nat) (s : State) :
    dispatch (.instr (.read address unused)) s = execRead address s := rfl

/-- Settles O29: both records decode to `READ` of one address. -/
theorem readRecordIgnoresItsLowOperand : Obligations.ReadRecordIgnoresItsLowOperand := by
  unfold Obligations.ReadRecordIgnoresItsLowOperand
  intro w w' s hread hsame
  have hopcode : w.extractLsb' 36 5 = w'.extractLsb' 36 5 :=
    extractLsb'_eq_of_bits_12_to_40 hsame (by decide) (by decide)
  have haddress : w.extractLsb' 12 24 = w'.extractLsb' 12 24 :=
    extractLsb'_eq_of_bits_12_to_40 hsame (by decide) (by decide)
  rw [decode_read hread, decode_read (hopcode ▸ hread), dispatch_read, dispatch_read, haddress]

/-- The step of a running machine that exists (R111). -/
theorem step_eq_runningStep {s : State} (hsize : 1 ≤ s.cfg.sizeBytes) (hrun : s.status = .running) :
    step s = runningStep s := by
  simp [step, sequencerStep, hrun, Nat.not_lt.2 hsize]

/-- With a whole record at `pc` the running step is its dispatch (R111, R115). -/
theorem runningStep_eq_dispatch {s : State} (hwhole : s.ilen % 6 = 0) (hfetch : s.fetch.length = 6) :
    runningStep s = dispatch (decode s.fetch) s := by
  rw [State.fetch_length] at hfetch
  have hleft : 6 * s.pc ≠ s.ilen := by omega
  simp [runningStep, hwhole, hleft]

/-- Settles O34: the record is dispatched as an unknown opcode, and dispatch raises the fault. -/
theorem unknownOpcodeFaults : Obligations.UnknownOpcodeFaults := by
  unfold Obligations.UnknownOpcodeFaults
  intro s w hsize hrun hwhole hfetch hopcode
  have hdecode : decode s.fetch = .unknownOpcode (w.extractLsb' 36 5) := by
    rw [hfetch, decode_bytesOfWord, decodeWord, select_eq_unknownOpcode_iff]
    exact ⟨hopcode, rfl⟩
  have hsix : s.fetch.length = 6 := by rw [hfetch, bytesOfWord_length]
  rw [step_eq_runningStep hsize hrun, runningStep_eq_dispatch hwhole hsix, hdecode]
  rfl

end Machine

end Sys2Proof

/-! SUPPORT. The statements from spec/40_data_transfer.md: what `LOAD_CON` (O21, O27), `READ` (O22) and `WRITE` (O23,
O28) do when no check fails, and which checks decide whether an instruction completes or faults (O32). -/

namespace Sys2Proof

/-- The arguments that pass every check of their instruction: an address up to `MAX_ADDRESS` (R131), a literal up to
`MAX_VALUE` (R132). -/
def Instr.Legal (c : Config) : Instr → Prop
  | .loadCon address literal => address ≤ c.maxAddress ∧ literal ≤ c.maxValue
  | .read address _ => address ≤ c.maxAddress
  | .write src dst => src ≤ c.maxAddress ∧ dst ≤ c.maxAddress
  | .pow base exponent => base ≤ c.maxAddress ∧ exponent ≤ c.maxAddress

namespace Machine

/-! ### The datapath -/

/-- A field written back to its own window changes no bit (R93, corner case 1). -/
theorem memWrite_memRead_same (mem a n : Nat) : memWrite mem a n (memRead mem a n) = mem := by
  apply Nat.eq_of_testBit_eq
  intro i
  rw [memWrite_testBit, memRead_testBit]
  by_cases hin : a ≤ i ∧ i < a + n
  · have hread : i - a < n := by omega
    have hpos : a + (i - a) = i := by omega
    simp [hin, hread, hpos]
  · rw [if_neg hin]

section
variable {s : State}

/-- A field in arithmetic (R41). -/
theorem State.field_eq_mod (s : State) (a : Nat) : s.field a = s.mem / 2 ^ a % 2 ^ s.cfg.valueBits :=
  memRead_eq_mod s.mem a s.cfg.valueBits

/-- One field copied to another window, bit by bit: every bit of the destination comes from the memory before the
write, where the two windows overlap too (R58). -/
theorem State.writeField_field_testBit (s : State) (src dst i : Nat) :
    (s.writeField dst (s.field src)).mem.testBit i =
      if dst ≤ i ∧ i < dst + s.cfg.valueBits then s.mem.testBit (src + (i - dst)) else s.mem.testBit i := by
  rw [State.writeField_mem, memWrite_testBit]
  by_cases hin : dst ≤ i ∧ i < dst + s.cfg.valueBits
  · have hread : i - dst < s.cfg.valueBits := by omega
    rw [if_pos hin, if_pos hin, State.field_testBit, decide_eq_true hread, Bool.true_and]
  · rw [if_neg hin, if_neg hin]

/-! ### The instructions whose checks pass -/

theorem exec_loadCon {address literal : Nat} (haddress : address ≤ s.cfg.maxAddress)
    (hliteral : literal ≤ s.cfg.maxValue) :
    exec (.loadCon address literal) s =
      .next ((s.writeField address literal).complete (.loadCon s.operationCounter address literal)) :=
  (requireAddress_legal haddress _).trans (requireLiteral_legal hliteral _)

theorem exec_read {address : Nat} (haddress : address ≤ s.cfg.maxAddress) (unused : Nat) :
    exec (.read address unused) s = .next (s.complete (.read s.operationCounter address (s.field address))) :=
  requireAddress_legal haddress _

theorem exec_write {src dst : Nat} (hsrc : src ≤ s.cfg.maxAddress) (hdst : dst ≤ s.cfg.maxAddress) :
    exec (.write src dst) s =
      .next ((s.writeField dst (s.field src)).complete (.write s.operationCounter src dst (s.field src))) :=
  (requireAddress_legal hsrc _).trans (requireAddress_legal hdst _)

end

/-- Settles O21: the new memory is that of the field write. -/
theorem loadConStoresTheLiteral : Obligations.LoadConStoresTheLiteral := by
  unfold Obligations.LoadConStoresTheLiteral
  intro s address literal haddress hliteral
  exact ⟨(s.writeField address literal).mem, exec_loadCon haddress hliteral,
    memWrite_testBit s.mem address s.cfg.valueBits literal⟩

/-- Settles O23: the new memory is that of writing the source field, as it was, to the destination. -/
theorem writeCopiesTheSourceField : Obligations.WriteCopiesTheSourceField := by
  unfold Obligations.WriteCopiesTheSourceField
  intro s src dst hsrc hdst
  rw [← State.field_eq_mod]
  exact ⟨(s.writeField dst (s.field src)).mem, exec_write hsrc hdst, s.writeField_field_testBit src dst⟩

/-- Settles O27: the second `LOAD_CON` meets the parameters of the first, so it completes too, and of its two writes to
one window the later stands. -/
theorem loadConTwiceLeavesTheSameMemory : Obligations.LoadConTwiceLeavesTheSameMemory := by
  unfold Obligations.LoadConTwiceLeavesTheSameMemory
  intro s address literal haddress hliteral
  refine ⟨_, _, exec_loadCon haddress hliteral, exec_loadCon haddress hliteral, ?mem, rfl, ?obs⟩
  case mem => exact memWrite_memWrite_same s.mem address s.cfg.valueBits literal literal
  case obs => cases hlog : s.cfg.loggingEnabled <;> simp [hlog]

/-- Settles O28: a field is a legal literal, and both instructions write it to the same window. -/
theorem writeLeavesMemoryAsLoadConOfTheSource : Obligations.WriteLeavesMemoryAsLoadConOfTheSource := by
  unfold Obligations.WriteLeavesMemoryAsLoadConOfTheSource
  intro s src dst hsrc hdst
  refine ⟨_, _, exec_write hsrc hdst, exec_loadCon hdst (s.field_le_maxValue src), rfl, ?onto_itself⟩
  case onto_itself =>
    rintro rfl
    exact memWrite_memRead_same s.mem src s.cfg.valueBits

/-! ### Completion and faults -/

theorem Stored.fault_eq {s u : State} (h : Stored s u) : u.fault = s.fault := by cases h <;> rfl

/-- The outcome is a fault raised in `s` (R136). -/
def RaisedIn (s : State) (o : Host.Outcome State Fault Refusal) : Prop :=
  ∃ k op arg, o = .next (s.raise k op arg)

section
variable {s : State} {goOn : Host.Outcome State Fault Refusal}

/-- What moves the counter raises no fault. -/
theorem not_raisedIn_of_counter_eq_succ {t : State} (h : t.operationCounter = s.operationCounter + 1) :
    ¬ RaisedIn s (.next t) := by
  rintro ⟨k, op, arg, heq⟩
  exact ne_raise_of_counter_eq_succ h (Host.Outcome.next.inj heq)

theorem requireAddress_raisedIn_iff {opcode : BitVec 5} {a : Nat} :
    RaisedIn s (requireAddress opcode a s goOn) ↔ (a ≤ s.cfg.maxAddress → RaisedIn s goOn) := by
  by_cases ha : a ≤ s.cfg.maxAddress
  · rw [requireAddress_legal ha]
    exact (imp_iff_right ha).symm
  · rw [requireAddress_illegal (by omega)]
    exact ⟨fun _ h => absurd h ha, fun _ => ⟨_, _, _, rfl⟩⟩

theorem requireLiteral_raisedIn_iff {opcode : BitVec 5} {v : Nat} :
    RaisedIn s (requireLiteral opcode v s goOn) ↔ (v ≤ s.cfg.maxValue → RaisedIn s goOn) := by
  by_cases hv : v ≤ s.cfg.maxValue
  · rw [requireLiteral_legal hv]
    exact (imp_iff_right hv).symm
  · rw [requireLiteral_illegal (by omega)]
    exact ⟨fun _ h => absurd h hv, fun _ => ⟨_, _, _, rfl⟩⟩

/-- An instruction raises a fault exactly when a check of its arguments fails: nothing after the checks raises one
(R90, R146). -/
theorem exec_raisedIn_iff (i : Instr) (s : State) : RaisedIn s (exec i s) ↔ ¬ i.Legal s.cfg := by
  cases i with
  | loadCon address literal =>
    show RaisedIn s (execLoadCon address literal s) ↔ ¬ (_ ∧ _)
    rw [execLoadCon, requireAddress_raisedIn_iff, requireLiteral_raisedIn_iff,
      iff_false_intro (not_raisedIn_of_counter_eq_succ rfl), not_and]
  | read address unused =>
    show RaisedIn s (execRead address s) ↔ ¬ (_ ≤ _)
    rw [execRead, requireAddress_raisedIn_iff, iff_false_intro (not_raisedIn_of_counter_eq_succ rfl)]
  | write src dst =>
    show RaisedIn s (execWrite src dst s) ↔ ¬ (_ ∧ _)
    rw [execWrite, requireAddress_raisedIn_iff, requireAddress_raisedIn_iff,
      iff_false_intro (not_raisedIn_of_counter_eq_succ rfl), not_and]
  | pow base exponent =>
    show RaisedIn s (execPow base exponent s) ↔ ¬ (_ ∧ _)
    rw [execPow, requireAddress_raisedIn_iff, requireAddress_raisedIn_iff,
      iff_false_intro (not_raisedIn_of_counter_eq_succ rfl), not_and]

end

/-- Settles O32: `exec_raisedIn_iff` decides the faults, and by `exec_cases` an instruction that raises none
completes. -/
theorem instructionCompletesExactlyWhenItsChecksPass : Obligations.InstructionCompletesExactlyWhenItsChecksPass := by
  unfold Obligations.InstructionCompletesExactlyWhenItsChecksPass
  intro i s
  refine ⟨?completes, exec_raisedIn_iff i s⟩
  case completes =>
    show _ ↔ i.Legal s.cfg
    constructor
    · rintro ⟨t, hexec, hcounter, -⟩
      by_contra hillegal
      have hraised := (exec_raisedIn_iff i s).2 hillegal
      rw [hexec] at hraised
      exact not_raisedIn_of_counter_eq_succ hcounter hraised
    · intro hlegal
      obtain hraised | ⟨u, e, hu, -, hexec⟩ := exec_cases i s
      · exact absurd hlegal ((exec_raisedIn_iff i s).1 hraised)
      · exact ⟨u.complete e, hexec, congrArg (· + 1) hu.operationCounter_eq, congrArg (· + 1) hu.pc_eq,
          hu.status_eq, hu.fault_eq, hu.cfg_eq, hu.istream_eq⟩

/-- Settles O22: `READ` is completion of the state as it is, with the field in its event. -/
theorem readReportsTheField : Obligations.ReadReportsTheField := by
  unfold Obligations.ReadReportsTheField
  intro s address unused haddress
  rw [← State.field_eq_mod]
  exact exec_read haddress unused

end Machine

end Sys2Proof

/-! SUPPORT. The statements from spec/41_arithmetic.md: the state `POW` completes with (O24), the range of its result
(O25), and its corner cases (O26). -/

namespace Sys2Proof.Machine

/-! ### Fields of the state -/

/-- Completion moves no memory and no parameter, so every field reads as before (R116). -/
@[simp] theorem State.complete_field (s : State) (e : Event) (a : Nat) : (s.complete e).field a = s.field a := rfl

section
variable {s : State} {a b v : Nat}

/-- A value below `2^W` is read back as it was written (R45). -/
theorem State.field_writeField_of_lt (hv : v < 2 ^ s.cfg.valueBits) : (s.writeField a v).field a = v := by
  rw [State.field_writeField_same, Config.and_maxValue, Nat.mod_eq_of_lt hv]

/-- A write leaves a field whose window does not meet its own as it was (R42). -/
theorem State.field_writeField_of_disjoint (h : a + s.cfg.valueBits ≤ b ∨ b + s.cfg.valueBits ≤ a) :
    (s.writeField a v).field b = s.field b := by
  apply Nat.eq_of_testBit_eq
  intro j
  rw [State.field_testBit, State.field_testBit, State.writeField_cfg]
  by_cases hj : j < s.cfg.valueBits
  · rw [State.writeField_testBit_outside (by omega)]
  · rw [decide_eq_false hj, Bool.false_and, Bool.false_and]

end

/-! ### What `POW` does when its checks pass -/

/-- The formula of R100: `(b ** e) mod MAX_VALUE` over the unbounded naturals. -/
def State.powResult (s : State) (base exponent : Nat) : Nat :=
  s.field base ^ s.field exponent % s.cfg.maxValue

/-- The state in which `POW` completes (R100). -/
def State.afterPow (s : State) (base exponent : Nat) : State :=
  (s.writeField base (s.powResult base exponent)).complete
    (.pow s.operationCounter base exponent (s.field base) (s.field exponent) (s.powResult base exponent))

section
variable {s : State} {base exponent : Nat}

/-- Square-and-multiply stores what the formula says (R103). -/
theorem exec_pow (hbase : base ≤ s.cfg.maxAddress) (hexponent : exponent ≤ s.cfg.maxAddress) :
    exec (.pow base exponent) s = .next (s.afterPow base exponent) := by
  have hresult : powMod (s.field base) (s.field exponent) s.cfg.maxValue = s.powResult base exponent := powMod_eq _ _ _
  rw [State.afterPow, ← hresult]
  exact (requireAddress_legal hbase _).trans (requireAddress_legal hexponent _)

/-- The remainder is below `MAX_VALUE`, which is not 0 in a machine that exists (R102). -/
theorem State.powResult_lt_maxValue (hsize : 1 ≤ s.cfg.sizeBytes) : s.powResult base exponent < s.cfg.maxValue := by
  have hmodulus := Config.maxValue_ge hsize
  exact Nat.mod_lt _ (by omega)

theorem State.afterPow_field_base (hsize : 1 ≤ s.cfg.sizeBytes) :
    (s.afterPow base exponent).field base = s.powResult base exponent := by
  rw [State.afterPow, State.complete_field]
  exact State.field_writeField_of_lt ((State.powResult_lt_maxValue hsize).trans s.cfg.maxValue_lt)

/-- The exponent field is not written (R100, corner case 1). -/
theorem State.afterPow_field_exponent
    (h : base + s.cfg.valueBits ≤ exponent ∨ exponent + s.cfg.valueBits ≤ base) :
    (s.afterPow base exponent).field exponent = s.field exponent := by
  rw [State.afterPow, State.complete_field, State.field_writeField_of_disjoint h]

/-! ### The results that need no power -/

theorem State.powResult_eq_zero_of_dvd (h : s.cfg.maxValue ∣ s.field base ^ s.field exponent) :
    s.powResult base exponent = 0 :=
  Nat.mod_eq_zero_of_dvd h

/-- A power that is 1 is its own remainder: the modulus is at least 255. -/
theorem State.powResult_eq_one (hsize : 1 ≤ s.cfg.sizeBytes) (h : s.field base ^ s.field exponent = 1) :
    s.powResult base exponent = 1 := by
  have hmodulus := Config.maxValue_ge hsize
  rw [State.powResult, h, Nat.mod_eq_of_lt (by omega)]

/-- A base that is a multiple of the modulus leaves no remainder: the case of 0 and of `MAX_VALUE` (R100, corner cases 5
and 7). -/
theorem State.powResult_eq_zero_of_dvd_base (h : s.cfg.maxValue ∣ s.field base) (he : 1 ≤ s.field exponent) :
    s.powResult base exponent = 0 :=
  State.powResult_eq_zero_of_dvd (dvd_pow h (by omega))

end

/-! ### The obligations -/

/-- Settles O24: the new memory is that of writing the result over the base field. -/
theorem powStoresThePowerOverTheBase : Obligations.PowStoresThePowerOverTheBase := by
  unfold Obligations.PowStoresThePowerOverTheBase
  intro s base exponent hbase hexponent
  exact ⟨(s.afterPow base exponent).mem, s.field base, s.field exponent, s.powResult base exponent,
    s.field_eq_mod base, s.field_eq_mod exponent, rfl, exec_pow hbase hexponent,
    memWrite_testBit s.mem base s.cfg.valueBits (s.powResult base exponent)⟩

/-- Settles O25: the base field reads the remainder, which is below the modulus; the two powers of the examples are
`2^32`. -/
theorem powResultIsARemainderModuloMaxValue : Obligations.PowResultIsARemainderModuloMaxValue := by
  unfold Obligations.PowResultIsARemainderModuloMaxValue
  refine ⟨fun s base exponent hsize hbase hexponent => ?remainder, ?two_pow_32, ?square_65536⟩
  case remainder =>
    have hlt : s.powResult base exponent < s.cfg.maxValue := State.powResult_lt_maxValue hsize
    refine ⟨s.afterPow base exponent, exec_pow hbase hexponent, ?_⟩
    rw [State.afterPow_field_base hsize]
    exact ⟨rfl, by omega, hlt.ne, State.powResult_eq_zero_of_dvd⟩
  case two_pow_32 => norm_num [powMod_eq]
  case square_65536 => norm_num [powMod_eq]

/-- Settles O26: each result that needs no power is a law of `powResult`, which the base field reads; the exponent field
is the frame of the write. -/
theorem powCornerCases : Obligations.PowCornerCases := by
  unfold Obligations.PowCornerCases
  intro s base exponent hsize hbase hexponent
  refine ⟨s.afterPow base exponent, exec_pow hbase hexponent, ?_⟩
  rw [State.afterPow_field_base hsize]
  refine ⟨fun he => ?exponent_zero, fun he => ?exponent_one, fun hb he => ?base_zero, fun hb => ?base_one,
    fun hb he => ?base_max, State.afterPow_field_exponent⟩
  case exponent_zero => exact State.powResult_eq_one hsize (by rw [he, pow_zero])
  case exponent_one => rw [State.powResult, he, pow_one]
  case base_zero => exact State.powResult_eq_zero_of_dvd_base (by rw [hb]; exact dvd_zero _) he
  case base_one => exact State.powResult_eq_one hsize (by rw [hb, one_pow])
  case base_max => exact State.powResult_eq_zero_of_dvd_base hb.symm.dvd he

end Sys2Proof.Machine

/-! SUPPORT. The statements from spec/45_sequencer.md: what a step does by the sequencer's checks (O35, O37 to O40), the
three ways a step goes on (O43), the end of a run (O45, O46), the run of an encoded program (O47), and a record placed
at `pc` (O48). -/

namespace Sys2Proof

/-! ### Chunks that decode to an instruction -/

/-- Only a whole record decodes to an instruction (R65). -/
theorem length_of_decode_eq_instr {bs : List Byte} {i : Instr} (h : decode bs = .instr i) : bs.length = 6 := by
  by_contra hne
  obtain ⟨n, hn⟩ := (decode_notSixBytes_iff bs).2 hne
  rw [h] at hn
  cases hn

/-- What the decoder reads has operands that fit their fields (R66). -/
theorem Instr.wf_of_decode {bs : List Byte} {i : Instr} (h : decode bs = .instr i) : i.wf = true := by
  obtain ⟨w, rfl⟩ := exists_word_of_length (length_of_decode_eq_instr h)
  rw [decode_bytesOfWord] at h
  exact Instr.wf_of_select h

theorem decodeTableWord_eq_some_iff {nbits w : Nat} {i : Instr} :
    decodeTableWord nbits w = some i ↔ decode (bytesOfWord (tableWord nbits w)) = .instr i := by
  unfold decodeTableWord
  cases decode (bytesOfWord (tableWord nbits w)) <;> simp

namespace Machine

/-! ### The step by the sequencer's checks -/

section
variable {s : State}

/-- A partial record anywhere in the stream is found before anything is fetched (R112). -/
theorem step_of_malformed (hsize : 1 ≤ s.cfg.sizeBytes) (hrun : s.status = .running) (hpartial : s.ilen % 6 ≠ 0) :
    step s = .next (s.raise .malformedRecord none s.ilen) :=
  (step_eq_runningStep hsize hrun).trans (if_pos hpartial)

/-- With no record left the run ends (R113). -/
theorem step_of_exhausted (hsize : 1 ≤ s.cfg.sizeBytes) (hrun : s.status = .running) (hend : 6 * s.pc = s.ilen) :
    step s = .next s.finish := by
  have hwhole : ¬ s.ilen % 6 ≠ 0 := by omega
  exact (step_eq_runningStep hsize hrun).trans ((if_neg hwhole).trans (if_pos hend))

/-- A record that decodes to an instruction is that instruction's meaning (R115). -/
theorem step_eq_exec {i : Instr} (hsize : 1 ≤ s.cfg.sizeBytes) (hrun : s.status = .running)
    (hwhole : s.ilen % 6 = 0) (hdecode : decode s.fetch = .instr i) : step s = exec i s := by
  rw [step_eq_runningStep hsize hrun, runningStep_eq_dispatch hwhole (length_of_decode_eq_instr hdecode), hdecode]
  rfl

theorem step_of_done (hsize : 1 ≤ s.cfg.sizeBytes) (hdone : s.status = .done) : step s = .refused .runIsOver := by
  simp [step, sequencerStep, hdone, Nat.not_lt.2 hsize]

theorem step_of_fault (hsize : 1 ≤ s.cfg.sizeBytes) (hfault : s.status = .fault) :
    step s = .fault (.runAborted s.fault) := by
  simp [step, sequencerStep, hfault, Nat.not_lt.2 hsize]

/-- Dispatch of a whole record answers a next state, whatever the record (R115, R133). -/
theorem dispatch_decode_next {bs : List Byte} (hsix : bs.length = 6) (s : State) :
    ∃ t, dispatch (decode bs) s = .next t := by
  cases hdecode : decode bs with
  | instr i =>
    obtain ⟨k, op, arg, hexec⟩ | ⟨u, e, -, -, hexec⟩ := exec_cases i s
    · exact ⟨_, hexec⟩
    · exact ⟨_, hexec⟩
  | unknownOpcode opcode => exact ⟨_, rfl⟩
  | notSixBytes n => exact absurd hsix ((decode_notSixBytes_iff bs).1 ⟨n, hdecode⟩)

/-- A running machine that meets the invariant is never stuck (R111). -/
theorem State.Inv.step_progress (hinv : s.Inv) (hrun : s.status = .running) : ∃ t, step s = .next t := by
  have hsize := hinv.exists_machine
  have hpc := hinv.pc_le
  by_cases hwhole : s.ilen % 6 = 0
  · by_cases hend : 6 * s.pc = s.ilen
    · exact ⟨_, step_of_exhausted hsize hrun hend⟩
    · have hsix : s.fetch.length = 6 := by rw [State.fetch_length]; omega
      rw [step_eq_runningStep hsize hrun, runningStep_eq_dispatch hwhole hsix]
      exact dispatch_decode_next hsix s
  · exact ⟨_, step_of_malformed hsize hrun hwhole⟩

end

/-- Settles O35: `step_of_malformed`, the raised fault written out. -/
theorem malformedStreamFaultsBeforeAnyRecord : Obligations.MalformedStreamFaultsBeforeAnyRecord := by
  unfold Obligations.MalformedStreamFaultsBeforeAnyRecord
  exact fun s hsize hrun hpartial => step_of_malformed hsize hrun hpartial

/-- Settles O37, one lemma for each terminal status. -/
theorem finishedMachineHasNoStep : Obligations.FinishedMachineHasNoStep := by
  unfold Obligations.FinishedMachineHasNoStep
  exact fun s hsize => ⟨step_of_done hsize, step_of_fault hsize⟩

/-- Settles O38: what decodes is well-formed, and dispatch runs it. -/
theorem stepRunsTheDecodedInstruction : Obligations.StepRunsTheDecodedInstruction := by
  unfold Obligations.StepRunsTheDecodedInstruction
  intro s i hsize hrun hwhole hdecode
  exact ⟨Instr.wf_of_decode hdecode, step_eq_exec hsize hrun hwhole hdecode⟩

/-- Settles O39: `step_of_exhausted`, and the report of a state that is DONE. -/
theorem exhaustedStreamEndsTheRun : Obligations.ExhaustedStreamEndsTheRun := by
  unfold Obligations.ExhaustedStreamEndsTheRun
  intro s hsize hrun hend
  exact ⟨step_of_exhausted hsize hrun hend, State.finalReport_of_done rfl⟩

/-- Settles O40: the empty stream is exhausted at reset. -/
theorem emptyStreamEndsAtOnce : Obligations.EmptyStreamEndsAtOnce := by
  unfold Obligations.EmptyStreamEndsAtOnce
  intro c hvalid
  obtain ⟨hsize, -⟩ := (Config.valid_iff c).1 hvalid
  exact step_of_exhausted hsize rfl rfl

/-! ### The three ways a step goes on -/

theorem Stored.obs_eq {s u : State} (h : Stored s u) : u.obs = s.obs := by cases h <;> rfl

/-- Settles O43: the cases of `step_cases`, the completed record read through its store. -/
theorem stepEndsFaultsOrCompletesOneRecord : Obligations.StepEndsFaultsOrCompletesOneRecord := by
  unfold Obligations.StepEndsFaultsOrCompletesOneRecord
  intro s t hstep
  obtain ⟨-, hrun, -⟩ := step_next hstep
  refine ⟨hrun, ?_⟩
  obtain ⟨-, -, rfl⟩ | ⟨k, op, arg, rfl⟩ | ⟨-, -, i, u, e, -, -, hstored, he, rfl⟩ := step_cases hstep
  · exact .inl rfl
  · exact .inr (.inl ⟨rfl, rfl, rfl, rfl, rfl⟩)
  · refine .inr (.inr ⟨hstored.status_eq.trans hrun, hstored.fault_eq, congrArg (· + 1) hstored.pc_eq,
      congrArg (· + 1) hstored.operationCounter_eq, e, he, ?_⟩)
    rw [State.complete_obs, hstored.cfg_eq, hstored.obs_eq]

/-! ### The end of a run -/

/-- The whole records from `pc` on. -/
def State.recordsLeft (s : State) : Nat :=
  s.ilen / 6 - s.pc

section
variable {s : State}

/-- A step of a running machine ends the run, or leaves one record fewer to a machine that still runs (R119). -/
theorem State.Inv.step_ends_or_advances (hinv : s.Inv) (hrun : s.status = .running) :
    ∃ t, step s = .next t ∧ ((t.status = .done ∨ t.status = .fault) ∨
      (t.Inv ∧ t.status = .running ∧ t.recordsLeft + 1 = s.recordsLeft)) := by
  obtain ⟨t, hstep⟩ := hinv.step_progress hrun
  refine ⟨t, hstep, ?_⟩
  obtain ⟨-, rfl | ⟨hfault, -⟩ | ⟨hrun', -, hpc, -⟩⟩ := stepEndsFaultsOrCompletesOneRecord s t hstep
  · exact .inl (.inl rfl)
  · exact .inl (.inr hfault)
  · have hinv' : t.Inv := stepKeepsTheInvariant s t hinv hstep
    have hilen : t.ilen = s.ilen := congrArg List.length (stepNeverChangesStreamOrParameters s t hstep).1
    have hle := hinv'.pc_le
    refine .inr ⟨hinv', hrun', ?_⟩
    unfold State.recordsLeft
    omega

/-- By induction on the records left (R119). -/
theorem State.Inv.run_reaches_end (hinv : s.Inv) (hrun : s.status = .running) :
    ∃ (n : Nat) (t : State), n ≤ s.recordsLeft + 1 ∧ Sys2Proof.core.run n s = .next t ∧
      (t.status = .done ∨ t.status = .fault) := by
  induction hleft : s.recordsLeft using Nat.strong_induction_on generalizing s with
  | _ left ih =>
    obtain ⟨t, hstep, hend | ⟨hinv', hrun', hfewer⟩⟩ := hinv.step_ends_or_advances hrun
    · exact ⟨1, t, by omega, run_next hstep, hend⟩
    · obtain ⟨n, t', hn, hreach, hend⟩ := ih t.recordsLeft (by omega) hinv' hrun' rfl
      exact ⟨n + 1, t', by omega, (run_next hstep).trans hreach, hend⟩

end

/-- Settles O45: `State.Inv.run_reaches_end`, the records left written out. -/
theorem everyRunTerminates : Obligations.EveryRunTerminates := by
  unfold Obligations.EveryRunTerminates
  exact fun s hinv hrun => hinv.run_reaches_end hrun

/-- Settles O46: only the end of the run sets DONE, and the invariant of the state it ends in says the rest. -/
theorem doneReportsEveryRecord : Obligations.DoneReportsEveryRecord := by
  unfold Obligations.DoneReportsEveryRecord
  intro s t hinv hstep hdone
  have hinv' : t.Inv := stepKeepsTheInvariant s t hinv hstep
  have hend := hinv'.done_at_end hdone
  have hpc : t.pc = t.ilen / 6 := by omega
  have hmem : t.mem = s.mem := by
    obtain ⟨-, rfl | ⟨hfault, -⟩ | ⟨hrun, -⟩⟩ := stepEndsFaultsOrCompletesOneRecord s t hstep
    · rfl
    · rw [hdone] at hfault; cases hfault
    · rw [hdone] at hrun; cases hrun
  have hnofault : t.fault = none := by
    have hnone := mt hinv'.fault_iff.2 (by simp [hdone])
    simpa using hnone
  refine ⟨?_, hend, ?_, hnofault, ?_⟩
  · rw [State.finalReport_of_done hdone, hmem]
  · rw [hinv'.counter_eq, hpc]
  · rw [hinv'.obs_numbered, hpc]

/-! ### The run of an encoded program -/

section
variable {s t u : State} {i : Instr} {rest program : List Instr} {left : Nat}

theorem execProgram_cons_of_fault (hexec : exec i s = .next t) (hfault : t.status = .fault) :
    execProgram (i :: rest) s = .next t := by
  simp [execProgram, hexec, hfault]

theorem execProgram_cons_of_ne_fault (hexec : exec i s = .next t) (hgoes : t.status ≠ .fault) :
    execProgram (i :: rest) s = execProgram rest t := by
  simp [execProgram, hexec, hgoes]

/-- The machine is running the stream of `program`, at a record of it or past the last. -/
structure State.Runs (s : State) (program : List Instr) : Prop where
  exists_machine : 1 ≤ s.cfg.sizeBytes
  running : s.status = .running
  stream_eq : s.istream = encodeProgram program
  pc_le : s.pc ≤ program.length

theorem State.Runs.status_ne_fault (hruns : s.Runs program) : s.status ≠ .fault := by
  simp [hruns.running]

theorem State.Runs.ilen_eq (hruns : s.Runs program) : s.ilen = 6 * program.length := by
  rw [State.ilen, hruns.stream_eq, encodeProgram_length]

theorem State.Runs.step_of_end (hruns : s.Runs program) (hend : s.pc = program.length) : step s = .next s.finish :=
  step_of_exhausted hruns.exists_machine hruns.running (by rw [hruns.ilen_eq, hend])

/-- The step at record `pc` is the instruction `pc` of the program (R114, R115). -/
theorem State.Runs.step_of_getElem? (hruns : s.Runs program) (hwf : ∀ j ∈ program, j.wf = true)
    (hget : program[s.pc]? = some i) : step s = exec i s := by
  have hwhole : s.ilen % 6 = 0 := by rw [hruns.ilen_eq, Nat.mul_mod_right]
  obtain ⟨-, -, hfetched⟩ := programRecordsAreFetchedInOrder program hwf
  obtain ⟨-, hdecode⟩ := hfetched s i hruns.stream_eq hget
  exact step_eq_exec hruns.exists_machine hruns.running hwhole hdecode

/-- Completing a record, after whatever it stored, goes on to the next one (R116). -/
theorem State.Runs.complete (hruns : s.Runs program) (hstored : Stored s u) (hlt : s.pc < program.length)
    (e : Event) : (u.complete e).Runs program where
  exists_machine := hstored.cfg_eq ▸ hruns.exists_machine
  running := hstored.status_eq.trans hruns.running
  stream_eq := hstored.istream_eq.trans hruns.stream_eq
  pc_le := by rw [State.complete_pc, hstored.pc_eq]; omega

/-- How the run from `s` with `left` records to go ends in the state `t` that the instructions themselves end in: at
the fault of the record `k` from `s` on, or by DONE one step after the last record (R119). -/
inductive RunEnds (s t : State) (left : Nat) : Prop where
  | fault (k : Nat) (hk : k < left) (hfault : t.status = .fault) (hpc : t.pc = s.pc + k)
      (hrun : Sys2Proof.core.run (k + 1) s = .next t)
  | done (hgoes : t.status ≠ .fault) (hpc : t.pc = s.pc + left)
      (hrun : Sys2Proof.core.run (left + 1) s = .next t.finish)

/-- A completed record before the run is one record and one step more. -/
theorem RunEnds.cons (hstep : step s = .next u) (hpc : u.pc = s.pc + 1) (hends : RunEnds u t left) :
    RunEnds s t (left + 1) := by
  cases hends with
  | fault k hk hfault hpc' hrun => exact .fault (k + 1) (by omega) hfault (by omega) ((run_next hstep).trans hrun)
  | done hgoes hpc' hrun => exact .done hgoes (by omega) ((run_next hstep).trans hrun)

/-- The run over the rest of the stream simulates the execution of the rest of the program: by induction on that rest,
each record a fault, where both stop, or a completion, after which both go on (R119, R122). -/
theorem State.Runs.execProgram_runEnds (hruns : s.Runs program) (hwf : ∀ j ∈ program, j.wf = true)
    (hrest : program.drop s.pc = rest) : ∃ t, execProgram rest s = .next t ∧ RunEnds s t rest.length := by
  induction rest generalizing s with
  | nil =>
    have hend : s.pc = program.length := Nat.le_antisymm hruns.pc_le (List.drop_eq_nil_iff.1 hrest)
    exact ⟨s, rfl, .done hruns.status_ne_fault rfl (run_next (hruns.step_of_end hend))⟩
  | cons i rest ih =>
    have hget : program[s.pc]? = some i := by rw [← List.head?_drop, hrest, List.head?_cons]
    have htail : program.drop (s.pc + 1) = rest := by rw [← List.tail_drop, hrest, List.tail_cons]
    obtain ⟨hlt, -⟩ := List.getElem?_eq_some_iff.1 hget
    have hstep := hruns.step_of_getElem? hwf hget
    obtain ⟨k, op, arg, hexec⟩ | ⟨u, e, hstored, -, hexec⟩ := exec_cases i s
    · rw [hexec] at hstep
      exact ⟨_, execProgram_cons_of_fault hexec rfl, .fault 0 (Nat.succ_pos _) rfl rfl (run_next hstep)⟩
    · rw [hexec] at hstep
      have hruns' := hruns.complete hstored hlt e
      have hpc : (u.complete e).pc = s.pc + 1 := congrArg (· + 1) hstored.pc_eq
      obtain ⟨t, ht, hends⟩ := ih hruns' (by rw [hpc, htail])
      exact ⟨t, (execProgram_cons_of_ne_fault hexec hruns'.status_ne_fault).trans ht, hends.cons hstep hpc⟩

end

theorem State.resetWith_runs {c : Config} (hvalid : c.valid = true) (program : List Instr) :
    (State.resetWith c (encodeProgram program)).Runs program where
  exists_machine := ((Config.valid_iff c).1 hvalid).1
  running := rfl
  stream_eq := rfl
  pc_le := Nat.zero_le _

/-- Settles O47: the simulation from reset, where the whole program is still to run. -/
theorem runRefinesExecutingTheProgram : Obligations.RunRefinesExecutingTheProgram := by
  unfold Obligations.RunRefinesExecutingTheProgram
  intro c program hvalid hwf
  obtain ⟨t, hexec, hends⟩ := (State.resetWith_runs hvalid program).execProgram_runEnds hwf rfl
  refine ⟨t, hexec, ?_⟩
  cases hends with
  | fault k hk hfault hpc hrun =>
    obtain rfl : t.pc = k := hpc.trans (Nat.zero_add k)
    exact ⟨fun _ => ⟨hk, hrun⟩, fun hgoes => absurd hfault hgoes⟩
  | done hgoes hpc hrun =>
    exact ⟨fun hfault => absurd hfault hgoes, fun _ => ⟨hpc.trans (Nat.zero_add _), hrun⟩⟩

/-! ### A record placed at `pc` -/

section
variable (stream : List Byte) (k : Nat) {record : List Byte}

/-- A placed record stands after `k` records' bytes and before whole records only. -/
theorem placeRecord_eq_append :
    ∃ before after : List Byte, before.length = 6 * k ∧ after.length % 6 = 0 ∧
      placeRecord stream k record = before ++ record ++ after := by
  refine ⟨_, _, ?_, ?_, rfl⟩
  · rw [List.length_append, List.length_replicate, List.length_take]
    omega
  · rw [List.length_take]
    omega

/-- A placed record makes a stream of whole records (R112). -/
theorem placeRecord_length_mod (hsix : record.length = 6) : (placeRecord stream k record).length % 6 = 0 := by
  obtain ⟨before, after, hbefore, hafter, heq⟩ := placeRecord_eq_append stream k (record := record)
  rw [heq, List.length_append, List.length_append, hbefore, hsix]
  omega

/-- A placed record is what the window at its index holds (R64). -/
theorem placeRecord_window (hsix : record.length = 6) :
    ((placeRecord stream k record).drop (6 * k)).take 6 = record := by
  obtain ⟨before, after, hbefore, -, heq⟩ := placeRecord_eq_append stream k (record := record)
  rw [heq, List.append_assoc, List.drop_left' hbefore, List.take_left' hsix]

end

/-- Settles O48: the placed record is what the next fetch reads, in a stream of whole records. -/
theorem placedRecordIsTheNextInstruction : Obligations.PlacedRecordIsTheNextInstruction := by
  unfold Obligations.PlacedRecordIsTheNextInstruction
  intro s nbits w i hsize hdecode
  have hsix := bytesOfWord_length (tableWord nbits w)
  have hwhole : (s.withFetchWord nbits w).ilen % 6 = 0 := placeRecord_length_mod s.istream s.pc hsix
  have hfetch : (s.withFetchWord nbits w).fetch = bytesOfWord (tableWord nbits w) :=
    placeRecord_window s.istream s.pc hsix
  refine step_eq_exec hsize rfl hwhole ?_
  rw [hfetch]
  exact decodeTableWord_eq_some_iff.1 hdecode

end Machine

end Sys2Proof

/-! SUPPORT. The statements from spec/60_exceptions.md: the frame of a step that ends in FAULT (O36), addresses above
`MAX_ADDRESS` (O30), and literals above `MAX_VALUE` (O31). -/

namespace Sys2Proof.Machine

section
variable {s t : State}

/-- Raising is the only way into FAULT: the end of the run sets DONE, and a completed record keeps RUNNING (R136). -/
theorem eq_raise_of_step_of_status_fault (hstep : step s = .next t) (hfault : t.status = .fault) :
    ∃ k op arg, t = s.raise k op arg := by
  obtain ⟨-, hrun, -⟩ := step_next hstep
  obtain ⟨-, -, rfl⟩ | hraise | ⟨-, -, i, u, e, -, -, hstored, -, rfl⟩ := step_cases hstep
  · rw [State.finish_status] at hfault
    cases hfault
  · exact hraise
  · rw [State.complete_status, hstored.status_eq, hrun] at hfault
    cases hfault

/-- The second of two addresses is reported only after the first has passed its check (R138, D11). -/
theorem requireAddress_second_illegal {opcode : BitVec 5} {a b : Nat} (ha : a ≤ s.cfg.maxAddress)
    (hb : s.cfg.maxAddress < b) (goOn : Host.Outcome State Fault Refusal) :
    requireAddress opcode a s (requireAddress opcode b s goOn) =
      .next (s.raise .addressOutOfRange (some opcode) b) :=
  (requireAddress_legal ha _).trans (requireAddress_illegal hb goOn)

end

/-- Settles O36: the state is a raise of the old one, and `State.raise` writes the status and the record alone. -/
theorem faultingStepChangesOnlyStatusAndRecord : Obligations.FaultingStepChangesOnlyStatusAndRecord := by
  unfold Obligations.FaultingStepChangesOnlyStatusAndRecord
  exact fun s t hstep hfault => eq_raise_of_step_of_status_fault hstep hfault

/-- Settles O30: the check of the address is the first thing each instruction does, or the second after one that
passed. -/
theorem addressAboveMaximumFaults : Obligations.AddressAboveMaximumFaults := by
  unfold Obligations.AddressAboveMaximumFaults
  intro s
  refine ⟨?loadCon, ?read, ?write_src, ?write_dst, ?pow_base, ?pow_exponent⟩
  case loadCon => exact fun address literal haddress => requireAddress_illegal haddress _
  case read => exact fun address unused haddress => requireAddress_illegal haddress _
  case write_src => exact fun src dst hsrc => requireAddress_illegal hsrc _
  case write_dst => exact fun src dst hsrc hdst => requireAddress_second_illegal hsrc hdst _
  case pow_base => exact fun base exponent hbase => requireAddress_illegal hbase _
  case pow_exponent => exact fun base exponent hbase hexponent => requireAddress_second_illegal hbase hexponent _

/-- Settles O31: `exec_eq_raise_value_iff` names this instruction as the one that raises `ValueOutOfRange`. -/
theorem literalAboveMaximumFaults : Obligations.LiteralAboveMaximumFaults := by
  unfold Obligations.LiteralAboveMaximumFaults
  exact fun s address literal haddress hliteral => exec_eq_raise_value_iff.2 ⟨address, rfl, haddress, hliteral, rfl⟩

end Sys2Proof.Machine

/-! SUPPORT. The statement from spec/70_reset_and_hazards.md: when two fields are independent (O17). -/

namespace Sys2Proof.Machine

section
variable {s : State} {a b i : Nat}

/-- A bit that two windows share reads in one field what a write put there through the other (R46). -/
theorem State.field_writeField_testBit_shared (v : Nat) (haLo : a ≤ i) (haHi : i < a + s.cfg.valueBits)
    (hbLo : b ≤ i) (hbHi : i < b + s.cfg.valueBits) :
    ((s.writeField a v).field b).testBit (i - b) = v.testBit (i - a) := by
  have hread : i - b < s.cfg.valueBits := by omega
  have hpos : b + (i - b) = i := by omega
  rw [State.field_testBit, hpos, State.writeField_testBit_inside haLo haHi, State.writeField_cfg]
  simp [hread]

/-- In any state, the writes at `a` leave the field at `b` alone exactly when the windows are apart: the lowest bit the
windows share, at `max a b`, would have to be both 0 and 1 (R163). -/
theorem State.forall_field_writeField_eq_iff :
    (∀ v, (s.writeField a v).field b = s.field b) ↔ a + s.cfg.valueBits ≤ b ∨ b + s.cfg.valueBits ≤ a := by
  refine ⟨fun hkeeps => ?apart, fun hapart _ => State.field_writeField_of_disjoint hapart⟩
  case apart =>
    by_contra hoverlap
    have hshared (v : Nat) : ((s.writeField a v).field b).testBit (max a b - b) = v.testBit (max a b - a) :=
      State.field_writeField_testBit_shared v (by omega) (by omega) (by omega) (by omega)
    have hzeros : (s.field b).testBit (max a b - b) = false := by
      rw [← hkeeps 0, hshared, Nat.zero_testBit]
    have hones : (s.field b).testBit (max a b - b) = true := by
      have hin : max a b - a < s.cfg.valueBits := by omega
      rw [← hkeeps s.cfg.maxValue, hshared, Config.maxValue, Nat.testBit_two_pow_sub_one, decide_eq_true hin]
    exact Bool.false_ne_true (hzeros.symm.trans hones)

end

/-- Settles O17: `State.forall_field_writeField_eq_iff` in every state; the memory of zeros is a well-formed one in
which overlapping fields show it. -/
theorem fieldsAreIndependentExactlyWhenApart : Obligations.FieldsAreIndependentExactlyWhenApart := by
  unfold Obligations.FieldsAreIndependentExactlyWhenApart
  intro c a b _ _ _
  constructor
  case mp =>
    intro hkeeps
    have hzeros : Memory.wf c State.reset.mem := Nat.two_pow_pos c.memBits
    exact State.forall_field_writeField_eq_iff.1 fun v => hkeeps { State.reset with cfg := c } v rfl hzeros
  case mpr =>
    rintro hapart s v rfl -
    exact State.forall_field_writeField_eq_iff.2 hapart v

end Sys2Proof.Machine
